-- ==== Sys2Proof/Word.lean ====
section
/-! DEFINITION. The word and field types of the conf3 core (00_scope.md R7, R11). -/

namespace Sys2Proof

/-- A register or memory-cell value: XLEN = 32 bits (R7, R11). -/
abbrev Word := BitVec 32

/-- One byte of a program image (R50). -/
abbrev Byte := BitVec 8

/-- An instruction word: WORD_BITS = 40 bits (R7, R32). -/
abbrev InstrWord := BitVec 40

/-- The program counter: an unsigned 32-bit instruction index (R19). -/
abbrev Pc := BitVec 32

/-- A register index field: REG_W = 4 bits (R7, R34). -/
abbrev RegIdx := BitVec 4

/-- An immediate-constant or I/O-tag field: IMM_W = 26 bits (R7, R35). -/
abbrev Imm := BitVec 26

/-- A data-memory address field: ADDR_W = 31 bits (R7, R36). -/
abbrev Addr := BitVec 31

/-- A jump-target field: TGT_W = 31 bits (R7, R37). -/
abbrev Target := BitVec 31

/-- WORD_BYTES: the bytes of one instruction word (R7). -/
abbrev wordBytes : Nat := 5

end Sys2Proof
end

