-- ==== Sys2Proof/Machine/Flags.lean ====
section
/-! DEFINITION. The hardware has no condition codes or flags (10_state.md R25): NEQ writes its boolean into a
register and JZ tests a register. These two conditions are all there is. -/

namespace Sys2Proof.Machine

/-- NEQ's result: 1 if the two words differ, else 0, as a word (42_arith_compare.md R67). -/
def notEqualWord (r m : Word) : Word := if r ≠ m then 1 else 0

/-- JZ's condition: all 32 bits are zero (43_control.md R72). -/
def isZero (w : Word) : Bool := w == 0

end Sys2Proof.Machine
end

