-- ==== Sys2Proof/Config.lean ====
section
/-! DEFINITION. The four configuration parameters of 00_scope.md R8 and what R9 derives from them.
The spec leaves no result value open (93_implementation_defined.md), so there is no free value here. -/

namespace Sys2Proof

/-- The parameters of R8, "each is fixed for a whole run".
MEM_SIZE is "2^k with 0 <= k <= 31", so the exponent is held and an illegal size cannot be written. -/
structure Config where
  /-- k of MEM_SIZE = 2^k. -/
  memSizeLog2 : Fin 32
  /-- STEP_LIMIT, the step budget. -/
  stepLimit : Nat
  /-- R0_HARDWIRED, the register-0 policy of R17 and R18. -/
  r0Hardwired : Bool
  /-- STRICT_PADDING, whether nonzero padding is a decode error (R46). -/
  strictPadding : Bool
deriving DecidableEq, Repr

namespace Config

/-- MEM_SIZE, the number of data-memory cells (R8). -/
def memSize (cfg : Config) : Nat := 2 ^ cfg.memSizeLog2.val

/-- ADDR_MAX = min(MEM_SIZE, 2^ADDR_W) - 1, the largest address the encoder accepts (R9). -/
def addrMax (cfg : Config) : Nat := min cfg.memSize (2 ^ 31) - 1

/-- The defaults of R8: MEM_SIZE = 2^20, R0_HARDWIRED = false, STRICT_PADDING = true.
STEP_LIMIT has no default in the spec (D19): the caller gives it. -/
def withStepLimit (n : Nat) : Config :=
  { memSizeLog2 := 20, stepLimit := n, r0Hardwired := false, strictPadding := true }

/-- The configuration of `State.reset`: the defaults of R8.
DESIGN CHOICE (log 2): STEP_LIMIT is 1000, the value 95_test_vectors.md runs its vectors with. -/
def default : Config := withStepLimit 1000

end Config

end Sys2Proof
end

