-- ==== Sys2Proof/Syntax.lean ====
section
/-! DEFINITION. The eleven operations of 00_scope.md R2 as decoded instructions, operands in field order B, C
(30_encoding.md R38, R40). A decoded field always holds its field's width, so the operand types are the widths
and no out-of-range register can be written (R34, R82; log 12). IN and OUT are `input` and `output` here. -/

namespace Sys2Proof

/-- A decoded instruction, one constructor per row of the Field Layout Table R38. -/
inductive Instr where
  /-- NOP (R63). -/
  | nop
  /-- LDI: B = the constant, C = the destination register (R64). -/
  | ldi (imm : Imm) (c : RegIdx)
  /-- LOAD: B = the destination register, C = the address (R65). -/
  | load (b : RegIdx) (a : Addr)
  /-- STORE: B = the address, C = the source register (R66). -/
  | store (a : Addr) (c : RegIdx)
  /-- NEQ: B = the compared and destination register, C = the address (R67). -/
  | neq (b : RegIdx) (a : Addr)
  /-- ADD: B = the destination and first source, C = the second source (R68). -/
  | add (b : RegIdx) (c : RegIdx)
  /-- SUB: B = the destination and minuend, C = the subtrahend (R69). -/
  | sub (b : RegIdx) (c : RegIdx)
  /-- JMP: B = the target (R71). -/
  | jmp (t : Target)
  /-- JZ: B = the tested register, C = the target (R72). -/
  | jz (b : RegIdx) (t : Target)
  /-- IN: B = the I/O tag, C = the destination register (R74). -/
  | input (tag : Imm) (c : RegIdx)
  /-- OUT: B = the I/O tag, C = the source register (R75). -/
  | output (tag : Imm) (c : RegIdx)
deriving DecidableEq, Repr

end Sys2Proof
end

