-- ==== Sys2Proof/WellFormed.lean ====
section
/-! DEFINITION. The normalized instruction record the encoder is given, and when it is well-formed
(30_encoding.md R34 to R37, R40). The checks are written from the operand kinds, apart from the Field Layout
Table that the encoder reads, so that the two can be held against each other. -/

namespace Sys2Proof

/-- A normalized instruction record (R40, D26): eleven variants, operands in field order B, C, each an integer.
An operation outside the eleven or a wrong operand count cannot be written. -/
inductive Record where
  | nop
  | ldi (b : Int) (c : Int)
  | load (b : Int) (c : Int)
  | store (b : Int) (c : Int)
  | neq (b : Int) (c : Int)
  | add (b : Int) (c : Int)
  | sub (b : Int) (c : Int)
  | jmp (b : Int)
  | jz (b : Int) (c : Int)
  | input (b : Int) (c : Int)
  | output (b : Int) (c : Int)
deriving DecidableEq, Repr

/-- A register operand: 0 to 15 (R34). -/
def regInRange (v : Int) : Bool := decide (0 ≤ v ∧ v ≤ 15)

/-- A constant operand: 0 to 67108863 (R35). -/
def constInRange (v : Int) : Bool := decide (0 ≤ v ∧ v ≤ 67108863)

/-- An address operand: 0 to ADDR_MAX (R36, R9). -/
def addrInRange (cfg : Config) (v : Int) : Bool := decide (0 ≤ v ∧ v ≤ cfg.addrMax)

/-- A jump-target operand: 0 to 2147483647, not bounded by MEM_SIZE (R37). -/
def targetInRange (v : Int) : Bool := decide (0 ≤ v ∧ v ≤ 2147483647)

/-- "Well-formed iff every operand's numeric value fits the declared field width for that opcode", an address
operand also at most ADDR_MAX (R40). -/
def Record.wellFormed (cfg : Config) : Record → Bool
  | .nop => true
  | .ldi b c => constInRange b && regInRange c
  | .load b c => regInRange b && addrInRange cfg c
  | .store b c => addrInRange cfg b && regInRange c
  | .neq b c => regInRange b && addrInRange cfg c
  | .add b c => regInRange b && regInRange c
  | .sub b c => regInRange b && regInRange c
  | .jmp b => targetInRange b
  | .jz b c => regInRange b && targetInRange c
  | .input b c => constInRange b && regInRange c
  | .output b c => constInRange b && regInRange c

/-- The record of a decoded instruction: each field is exactly the number stored in its bits (R37). -/
def Instr.toRecord : Instr → Record
  | .nop => .nop
  | .ldi imm c => .ldi imm.toNat c.toNat
  | .load b a => .load b.toNat a.toNat
  | .store a c => .store a.toNat c.toNat
  | .neq b a => .neq b.toNat a.toNat
  | .add b c => .add b.toNat c.toNat
  | .sub b c => .sub b.toNat c.toNat
  | .jmp t => .jmp t.toNat
  | .jz b t => .jz b.toNat t.toNat
  | .input tag c => .input tag.toNat c.toNat
  | .output tag c => .output tag.toNat c.toNat

/-- A decoded instruction whose record is well-formed: only an address at or beyond MEM_SIZE can fail (R47). -/
def Instr.wellFormed (cfg : Config) (i : Instr) : Bool := i.toRecord.wellFormed cfg

end Sys2Proof
end

