-- ==== Sys2Proof/Decode.lean ====
section
/-! DEFINITION. The Field Layout Table, the decoder and the encoder (30_encoding.md), and the program image (R50).
Opcode numbers, field offsets and the byte order are the spec's decisions D1 to D3 (log 9). -/

namespace Sys2Proof

/-! ## The Field Layout Table (R33 to R38) -/

/-- The eleven operations that the Field Layout Table is indexed by (R2, R38). -/
inductive Opcode where
  | nop | ldi | load | store | neq | add | sub | jmp | jz | input | output
deriving DecidableEq, Repr

/-- The operand kinds (R34 to R37). -/
inductive Kind where
  | reg | const | addr | target
deriving DecidableEq, Repr

/-- The two operand fields of a word (R33). -/
inductive FieldName where
  | B | C
deriving DecidableEq, Repr

/-- One row of the table: the kinds of fields B and C, absent where the row has no such field. -/
structure Layout where
  b : Option Kind
  c : Option Kind
deriving DecidableEq, Repr

/-- A field of a row with its place in the word. -/
structure Field where
  name : FieldName
  kind : Kind
  offset : Nat
deriving DecidableEq, Repr

/-- Field A's value for each operation (R38, D2). -/
def Opcode.code : Opcode → BitVec 4
  | .nop => 0 | .ldi => 1 | .load => 2 | .store => 3 | .neq => 4 | .add => 5
  | .sub => 6 | .jmp => 7 | .jz => 8 | .input => 9 | .output => 10

/-- The operation a low nibble names; 11 to 15 name none (R45). -/
def Opcode.ofNibble (n : BitVec 4) : Option Opcode :=
  match n.toNat with
  | 0 => some .nop | 1 => some .ldi | 2 => some .load | 3 => some .store | 4 => some .neq | 5 => some .add
  | 6 => some .sub | 7 => some .jmp | 8 => some .jz | 9 => some .input | 10 => some .output
  | _ => none

/-- The operation's name in the table (R38). -/
def Opcode.name : Opcode → String
  | .nop => "NOP" | .ldi => "LDI" | .load => "LOAD" | .store => "STORE" | .neq => "NEQ" | .add => "ADD"
  | .sub => "SUB" | .jmp => "JMP" | .jz => "JZ" | .input => "IN" | .output => "OUT"

/-- Field widths: REG_W, IMM_W, ADDR_W, TGT_W (R7). -/
def Kind.width : Kind → Nat
  | .reg => 4 | .const => 26 | .addr => 31 | .target => 31

/-- The largest legal operand at encode: REG_MAX, IMM_MAX, ADDR_MAX, TGT_MAX (R9, R34 to R37). -/
def Kind.max (cfg : Config) : Kind → Nat
  | .reg => 15 | .const => 2 ^ 26 - 1 | .addr => cfg.addrMax | .target => 2 ^ 31 - 1

/-- The Field Layout Table (R38): the kinds of B and C; their places follow R33. -/
def layout : Opcode → Layout
  | .nop => ⟨none, none⟩
  | .ldi => ⟨some .const, some .reg⟩
  | .load => ⟨some .reg, some .addr⟩
  | .store => ⟨some .addr, some .reg⟩
  | .neq => ⟨some .reg, some .addr⟩
  | .add => ⟨some .reg, some .reg⟩
  | .sub => ⟨some .reg, some .reg⟩
  | .jmp => ⟨some .target, none⟩
  | .jz => ⟨some .reg, some .target⟩
  | .input => ⟨some .const, some .reg⟩
  | .output => ⟨some .const, some .reg⟩

/-- An absent field takes no bits. -/
def fieldWidth : Option Kind → Nat
  | some k => k.width
  | none => 0

/-- OP_W: field B starts just above the opcode nibble (R33). -/
def offsetB : Nat := 4

/-- Field C starts just above field B (R33). -/
def offsetC (l : Layout) : Nat := offsetB + fieldWidth l.b

/-- The lowest padding bit: padding is every bit above the last field (R33). -/
def paddingStart (l : Layout) : Nat := offsetC l + fieldWidth l.c

/-- The padding bits of a row, up to bit 39 (R38). -/
def padMask (l : Layout) : InstrWord := BitVec.allOnes 40 <<< paddingStart l

/-- The present fields of a row, B before C. -/
def Layout.fields (l : Layout) : List Field :=
  (l.b.map (⟨.B, ·, offsetB⟩)).toList ++ (l.c.map (⟨.C, ·, offsetC l⟩)).toList

/-! ## Byte order (R32, D1: little-endian) -/

/-- Byte k of a word is bits 8k+7 to 8k. -/
def bytesOfWord (w : InstrWord) : Vector Byte 5 :=
  #v[w.extractLsb' 0 8, w.extractLsb' 8 8, w.extractLsb' 16 8, w.extractLsb' 24 8, w.extractLsb' 32 8]

/-- The word of five bytes, byte 0 lowest. -/
def wordOfBytes (bs : Vector Byte 5) : InstrWord := bs[4] ++ bs[3] ++ bs[2] ++ bs[1] ++ bs[0]

/-! ## The decoder (R44 to R47) -/

/-- The decoder's errors (R45, R46). -/
inductive DecodeError where
  /-- The low nibble is 11 to 15 (R45). -/
  | unknownOpcode (nibble : BitVec 4)
  /-- A known opcode with nonzero padding, under STRICT_PADDING (R46). -/
  | nonZeroPadding (opcode : BitVec 4) (bits : InstrWord)
deriving DecidableEq, Repr

/-- The numeric codes of the decoder results (60_exceptions.md R77). -/
def DecodeError.code : DecodeError → Nat
  | .unknownOpcode _ => 17
  | .nonZeroPadding _ _ => 18

/-- The opcode nibble of a word (R33, field A). -/
def opcodeNibble (w : InstrWord) : BitVec 4 := w.extractLsb' 0 4

/-- Field B of a word, placed and sized by the table (R44). -/
def fieldB (op : Opcode) (w : InstrWord) : BitVec (fieldWidth (layout op).b) := w.extractLsb' offsetB _

/-- Field C of a word, placed and sized by the table (R44). -/
def fieldC (op : Opcode) (w : InstrWord) : BitVec (fieldWidth (layout op).c) :=
  w.extractLsb' (offsetC (layout op)) _

/-- The variant of R44: the fields of a word whose opcode is known. -/
def assemble (op : Opcode) (w : InstrWord) : Instr :=
  match op with
  | .nop => .nop
  | .ldi => .ldi (fieldB .ldi w) (fieldC .ldi w)
  | .load => .load (fieldB .load w) (fieldC .load w)
  | .store => .store (fieldB .store w) (fieldC .store w)
  | .neq => .neq (fieldB .neq w) (fieldC .neq w)
  | .add => .add (fieldB .add w) (fieldC .add w)
  | .sub => .sub (fieldB .sub w) (fieldC .sub w)
  | .jmp => .jmp (fieldB .jmp w)
  | .jz => .jz (fieldB .jz w) (fieldC .jz w)
  | .input => .input (fieldB .input w) (fieldC .input w)
  | .output => .output (fieldB .output w) (fieldC .output w)

/-- Decode a 40-bit word: the opcode first, then the padding, then the fields (R44, D23).
An address is not compared with MEM_SIZE (R47). -/
def decodeWord (strict : Bool) (w : InstrWord) : Except DecodeError Instr :=
  match Opcode.ofNibble (opcodeNibble w) with
  | none => .error (.unknownOpcode (opcodeNibble w))
  | some op =>
    if strict = true ∧ w &&& padMask (layout op) ≠ 0 then
      .error (.nonZeroPadding (opcodeNibble w) (w &&& padMask (layout op)))
    else .ok (assemble op w)

/-- The decoder: exactly one 5-byte word to an instruction or an error (R44). -/
def decode (strict : Bool) (bs : Vector Byte 5) : Except DecodeError Instr := decodeWord strict (wordOfBytes bs)

/-! ## The encoder (R41 to R43) -/

/-- The operation of a record. -/
def Record.opcode : Record → Opcode
  | .nop => .nop
  | .ldi _ _ => .ldi
  | .load _ _ => .load
  | .store _ _ => .store
  | .neq _ _ => .neq
  | .add _ _ => .add
  | .sub _ _ => .sub
  | .jmp _ => .jmp
  | .jz _ _ => .jz
  | .input _ _ => .input
  | .output _ _ => .output

/-- The operands of a record in field order B, C. -/
def Record.operands : Record → List Int
  | .nop => []
  | .jmp b => [b]
  | .ldi b c | .load b c | .store b c | .neq b c | .add b c | .sub b c | .jz b c | .input b c | .output b c => [b, c]

/-- The encoder's error: "naming the field, the operation, the offending value, and the maximum" (R42). -/
structure FieldOutOfRange where
  field : FieldName
  op : Opcode
  value : Int
  max : Nat
deriving DecidableEq, Repr

/-- The numeric code of FieldOutOfRange (60_exceptions.md R77). -/
def FieldOutOfRange.code (_ : FieldOutOfRange) : Nat := 16

/-- The table's fields of a record paired with their operands. -/
def Record.fieldValues (r : Record) : List (Field × Int) := (layout r.opcode).fields.zip r.operands

/-- The first field, B before C, whose operand is negative or above its maximum (R41, R42). -/
def firstViolation (cfg : Config) (op : Opcode) : List (Field × Int) → Option FieldOutOfRange
  | [] => none
  | (f, v) :: rest =>
    if v < 0 ∨ (f.kind.max cfg : Int) < v then some ⟨f.name, op, v, f.kind.max cfg⟩ else firstViolation cfg op rest

/-- One operand shifted to its field's place (R41). -/
def placedField (fv : Field × Int) : InstrWord := BitVec.ofInt 40 fv.2 <<< fv.1.offset

/-- The opcode in bits 3:0 and each field at its offset; every other bit stays 0 (R41). -/
def pack (r : Record) : InstrWord :=
  r.fieldValues.foldl (fun w fv => w ||| placedField fv) (r.opcode.code.setWidth 40)

/-- The strict encoder: a word, or the first field out of range; it never masks (R41 to R43). -/
def encode (cfg : Config) (r : Record) : Except FieldOutOfRange InstrWord :=
  match firstViolation cfg r.opcode r.fieldValues with
  | some e => .error e
  | none => .ok (pack r)

/-- The word of a decoded instruction: its fields fit their widths already. -/
def Instr.word (i : Instr) : InstrWord := pack i.toRecord

/-! ## The program image (R50) -/

/-- The image of a list of words: "concatenation of fixed-size (5-byte) instruction words" (R50). -/
def imageOfWords : List InstrWord → List Byte
  | [] => []
  | w :: ws => (bytesOfWord w).toList ++ imageOfWords ws

/-- Encode each record in order and concatenate (R50).
DESIGN CHOICE (log 18): the first record that fails gives the result; what a driver then does is outside (R5). -/
def encodeImage (cfg : Config) : List Record → Except FieldOutOfRange (List Byte)
  | [] => .ok []
  | r :: rs =>
    match encode cfg r, encodeImage cfg rs with
    | .error e, _ => .error e
    | .ok _, .error e => .error e
    | .ok w, .ok bs => .ok ((bytesOfWord w).toList ++ bs)

/-! ## The host's opcode-table words -/

/-- An instruction of `nbits` bits numbered as spec/opcode_table.json numbers them, the bits above zero. -/
def tableWord (nbits w : Nat) : InstrWord := BitVec.ofNat 40 (w % 2 ^ nbits)

/-- What the decoder reads from a table word laid out in image bytes, under the default STRICT_PADDING (log 17). -/
def decodeTableWord (nbits w : Nat) : Option Instr :=
  match decode Config.default.strictPadding (bytesOfWord (tableWord nbits w)) with
  | .ok i => some i
  | .error _ => none

end Sys2Proof
end

