-- ==== Sys2Proof/Machine/Operands.lean ====
section
/-! DEFINITION. How an instruction's fields become values: every field is unsigned, "none is sign-extended, scaled,
shifted or offset by the pc" (30_encoding.md R37), and the value conversions of 00_scope.md R11. -/

namespace Sys2Proof.Machine

/-- zext_32: a constant field widened to a word (R11, R35). -/
def zext32 (imm : Imm) : Word := imm.setWidth 32

/-- The cell number an address field names (R36). -/
def cellAddress (a : Addr) : Nat := a.toNat

/-- The instruction index a target field names (R37). -/
def targetPc (t : Target) : Pc := t.setWidth 32

/-- wrap_32: an integer modulo 2^32 (R11). -/
def wrap32 (n : Int) : Word := BitVec.ofInt 32 n

/-- signed(w): the two's-complement reading of a word (R11; the spec's passage G1, log 9). -/
def signed (w : Word) : Int := if w.getLsbD 31 = false then (w.toNat : Int) else (w.toNat : Int) - 2 ^ 32

end Sys2Proof.Machine
end

