-- ==== Sys2Proof/Machine/State.lean ====
section
/-! DEFINITION. The state of the execution engine (10_state.md R15 to R25), its faults and refusals, and reset
(70_reset_and_hazards.md R95). -/

namespace Sys2Proof.Machine

/-- The direction of a data-memory access, named in a fault record (R26, R27). -/
inductive Access where
  | read | write
deriving DecidableEq, Repr

/-- A fault record: the kind, the per-kind fields of 60_exceptions.md R77, and the index of the faulting
instruction (R80). A fault is entered by a next state whose status holds it; `step` answers `fault` with it only
afterwards, from that terminal state (log 4, log 5). -/
inductive Fault where
  /-- Code 1. Raised by the step's decode of a word whose low nibble is 11 to 15 (R57, R78). Safe: the spec's own. -/
  | unknownOpcode (nibble : BitVec 4) (pc : Pc)
  /-- Code 2. Raised by the step's decode under STRICT_PADDING (R57, R79). Safe: the spec's own. -/
  | nonZeroPadding (opcode : BitVec 4) (bits : InstrWord) (pc : Pc)
  /-- Code 3. Raised by LOAD and NEQ (read) and STORE (write) when address >= MEM_SIZE (R81). Safe: the spec's own. -/
  | memoryAddressOutOfRange (access : Access) (address : Nat) (bound : Nat) (pc : Pc)
  /-- Code 4. Raised by nothing: kept so that the type matches the source's list (R82). Safe: never raised. -/
  | registerIndexOutOfRange (index : Nat) (bound : Nat) (pc : Pc)
deriving DecidableEq, Repr

/-- Why the model gives no meaning. -/
inductive Refusal where
  /-- Raised by an arm of exec whose instruction has no meaning yet; no arm does. Safe. -/
  | notModelled (mnemonic : String)
  /-- Raised by `step` in halted-normal: "no step is defined" from a terminal state (R61). Safe (log 4). -/
  | haltedNormal
  /-- Raised by `step` in halted-step-limit: "no step is defined" from a terminal state (R61). Safe (log 4). -/
  | haltedStepLimit
  /-- Raised by `launch` for an image of more than 2^31 words (R54, D12). Safe: the spec's own refusal. -/
  | programTooLarge (words : Nat)
  /-- Raised by `launch` for a memory preset at or beyond MEM_SIZE (R88, D27). Safe: the spec's own refusal. -/
  | presetOutOfRange (address : Nat)
deriving DecidableEq, Repr

/-- The run status (R25). -/
inductive Status where
  | running
  | haltedNormal
  | haltedFault (f : Fault)
  | haltedStepLimit
deriving DecidableEq, Repr

/-- The data memory: the cells that are not 0, by cell address, strictly rising (R20; log 6).
A cell is a whole 32-bit word: "each address names one 32-bit cell, and there is no byte addressing" (R28). -/
structure Memory where
  cells : List (Nat × Word)
deriving DecidableEq, Repr

/-- One entry of the output log: a signed 32-bit value and the raw 26-bit tag (R23; log 16). -/
structure OutEntry where
  value : Int
  tag : Imm
deriving DecidableEq, Repr

/-- The register file X[0..15] (R16). -/
abbrev RegFile := Vector Word 16

/-- The engine's state (R15), with the parameters of R8 carried beside it (log 1). -/
structure State where
  /-- The parameters of R8: arguments of every step, changed by none (log 1). -/
  config : Config
  /-- X[0..15] (R16). -/
  regs : RegFile
  /-- The index of the instruction to execute (R19). -/
  pc : Pc
  /-- The data memory (R20). -/
  mem : Memory
  /-- The program image, a byte sequence (R21). -/
  prog : List Byte
  /-- The input sequence, as the host gave it (R22). -/
  inq : List Int
  /-- The input cursor (R22). -/
  icur : Nat
  /-- The output log, oldest entry first (R23). -/
  outlog : List OutEntry
  /-- The completed instructions (R24). -/
  steps : Nat
  /-- The run status (R25). -/
  status : Status
deriving DecidableEq, Repr

/-- The reset state of R95 for given launch inputs: the image and the input sequence have no reset value. -/
def State.resetWith (cfg : Config) (image : List Byte) (inq : List Int) : State :=
  { config := cfg, regs := Vector.replicate 16 0, pc := 0, mem := ⟨[]⟩, prog := image, inq := inq, icur := 0,
    outlog := [], steps := 0, status := .running }

/-- The machine right after reset (R95), with nothing loaded.
DESIGN CHOICE (log 2, log 3): the default parameters, the empty image and the empty input. -/
def State.reset : State := State.resetWith Config.default [] []

end Sys2Proof.Machine
end

