-- ==== Sys2Proof/Machine/Ops.lean ====
section
/-! DEFINITION. The named operations every instruction is built from (00_scope.md R12): registers, memory, the
input queue and the output log, fetch, the checks at a step's start, commit, and entry to halted-fault. -/

namespace Sys2Proof.Machine

/-! ## Registers (10_state.md R17, R18) -/

/-- X[i], before the register-0 policy. -/
def State.X (s : State) (i : RegIdx) : Word := s.regs[i.toNat]'i.isLt

/-- Whether i is the hard-wired register 0. -/
def isHardwired (s : State) (i : RegIdx) : Bool := s.config.r0Hardwired && i == 0

/-- x[i]: a register read through the register-0 policy (R17). -/
def readReg (s : State) (i : RegIdx) : Word := if isHardwired s i then 0 else s.X i

/-- x[i] <- v: a register write through the register-0 policy (R18). -/
def writeReg (i : RegIdx) (v : Word) (s : State) : State :=
  if isHardwired s i then s else { s with regs := s.regs.set i.toNat v i.isLt }

/-! ## Data memory (20_memory.md R26, R27) -/

/-- The word of a cell; a cell that is not listed holds 0 (R20). -/
def lookupCell : List (Nat × Word) → Nat → Word
  | [], _ => 0
  | (b, v) :: rest, a => if a = b then v else lookupCell rest a

/-- Put a cell in its place among cells of other addresses. -/
def insertCell (a : Nat) (v : Word) : List (Nat × Word) → List (Nat × Word)
  | [] => [(a, v)]
  | (b, u) :: rest => if a < b then (a, v) :: (b, u) :: rest else (b, u) :: insertCell a v rest

/-- mem[a]. -/
def Memory.read (m : Memory) (a : Nat) : Word := lookupCell m.cells a

/-- mem[a] <- v, in canonical form: a cell that becomes 0 is no longer listed. -/
def Memory.write (m : Memory) (a : Nat) (v : Word) : Memory :=
  let others := m.cells.filter (fun c => c.1 != a)
  if v = 0 then ⟨others⟩ else ⟨insertCell a v others⟩

/-- The canonical form: addresses strictly rising, and no listed cell holds 0. -/
abbrev Memory.wf (m : Memory) : Prop :=
  m.cells.Pairwise (fun c d => c.1 < d.1) ∧ ∀ c ∈ m.cells, c.2 ≠ 0

/-- MemRead(a, 1): a bounds-checked read of one cell (R26). -/
def memRead (s : State) (a : Nat) : Except Fault Word :=
  if s.config.memSize ≤ a then .error (.memoryAddressOutOfRange .read a s.config.memSize s.pc)
  else .ok (s.mem.read a)

/-- MemWrite(a, 1, v): a bounds-checked write of one cell (R27). -/
def memWrite (s : State) (a : Nat) (v : Word) : Except Fault State :=
  if s.config.memSize ≤ a then .error (.memoryAddressOutOfRange .write a s.config.memSize s.pc)
  else .ok { s with mem := s.mem.write a v }

/-! ## Input queue and output log (10_state.md R22, R23) -/

/-- InPop(): the next input value modulo 2^32, or 0 with the cursor unchanged once the queue is exhausted (R22). -/
def inPop (s : State) : Word × State :=
  match s.inq[s.icur]? with
  | some n => (wrap32 n, { s with icur := s.icur + 1 })
  | none => (0, s)

/-- OutAppend(v, tag): append (signed(v), tag) (R23). -/
def outAppend (v : Word) (tag : Imm) (s : State) : State := { s with outlog := s.outlog ++ [⟨signed v, tag⟩] }

/-! ## The end of an instruction (40_engine.md R58 to R60) -/

/-- npc, the default next program counter: the advance by one word (R58).
At 2^32 - 1 it would wrap; no run reaches that (R19, log 11). -/
def nextPc (s : State) : Pc := s.pc + 1

/-- The commit of a completed instruction (R59). -/
def commit (npc : Pc) (s : State) : Host.Outcome State Fault Refusal :=
  .next { s with pc := npc, steps := s.steps + 1 }

/-- Taking a fault: entry to halted-fault, "the only trap entry of this hardware" (60_exceptions.md R80).
The record goes into status and nothing else changes (R60). There is no return from it (R86). -/
def raise (f : Fault) (s : State) : Host.Outcome State Fault Refusal := .next { s with status := .haltedFault f }

/-- The numeric code of a fault record (R77, R80). -/
def Fault.code : Fault → Nat
  | .unknownOpcode _ _ => 1
  | .nonZeroPadding _ _ _ => 2
  | .memoryAddressOutOfRange _ _ _ _ => 3
  | .registerIndexOutOfRange _ _ _ => 4

/-- The kind name of a fault record (R77, R80). -/
def Fault.kind : Fault → String
  | .unknownOpcode _ _ => "UnknownOpcode"
  | .nonZeroPadding _ _ _ => "NonZeroPadding"
  | .memoryAddressOutOfRange _ _ _ _ => "MemoryAddressOutOfRange"
  | .registerIndexOutOfRange _ _ _ => "RegisterIndexOutOfRange"

/-- The index of the faulting instruction in a fault record (R80). -/
def Fault.pc : Fault → Pc
  | .unknownOpcode _ pc => pc
  | .nonZeroPadding _ _ pc => pc
  | .memoryAddressOutOfRange _ _ _ pc => pc
  | .registerIndexOutOfRange _ _ pc => pc

/-! ## The start of a step (40_engine.md R55 to R57) -/

/-- P, the program length in words (R9, R54). -/
def programLength (s : State) : Nat := s.prog.length / wordBytes

/-- The termination checks at a step's start, in the spec's order (R55): the status the run ends in, if it ends. -/
def startCheck (s : State) : Option Status :=
  if programLength s ≤ s.pc.toNat then some .haltedNormal
  else if s.steps = s.config.stepLimit then some .haltedStepLimit
  else none

/-- ProgFetch(pc): bytes 5·pc to 5·pc + 4 of the program buffer (R56).
It is called only with pc < P, where all five bytes exist, so the 0 of getD is never read (log 10). -/
def progFetch (s : State) : Vector Byte 5 :=
  let k := wordBytes * s.pc.toNat
  #v[s.prog.getD k 0, s.prog.getD (k + 1) 0, s.prog.getD (k + 2) 0, s.prog.getD (k + 3) 0, s.prog.getD (k + 4) 0]

/-- The fetched word as the configured decoder reads it (R57). -/
def fetchDecode (s : State) : Except DecodeError Instr := decode s.config.strictPadding (progFetch s)

/-- The fault a decode error raises, with the failing program counter (R57). -/
def decodeFault (pc : Pc) : DecodeError → Fault
  | .unknownOpcode n => .unknownOpcode n pc
  | .nonZeroPadding op bits => .nonZeroPadding op bits pc

/-- What a step answers in each terminal state, where "no step is defined" (R61; log 4); none while running. -/
def terminalOutcome : Status → Option (Host.Outcome State Fault Refusal)
  | .running => none
  | .haltedNormal => some (.refused .haltedNormal)
  | .haltedFault f => some (.fault f)
  | .haltedStepLimit => some (.refused .haltedStepLimit)

/-! ## Placing one word where the next step fetches (log 14) -/

/-- A program buffer of at least n bytes: filled up with zero bytes, which are NOPs (30_encoding.md R51). -/
def padProgram (n : Nat) (prog : List Byte) : List Byte := prog ++ List.replicate (n - prog.length) 0

/-- The state whose next step fetches w at pc and runs it: the word's bytes in the buffer, the status running, and
a step budget that is not yet spent. -/
def placeWord (w : InstrWord) (s : State) : State :=
  let k := wordBytes * s.pc.toNat
  { s with
    prog := (padProgram k s.prog).take k ++ (bytesOfWord w).toList ++ s.prog.drop (k + wordBytes)
    status := .running
    config := { s.config with stepLimit := max s.config.stepLimit (s.steps + 1) } }

end Sys2Proof.Machine
end

