-- ==== Sys2Proof/Machine/ArithCompare.lean ====
section
/-! DEFINITION. NEQ, ADD and SUB (42_arith_compare.md R67 to R70). Both operands are read before the write (R98). -/

namespace Sys2Proof.Machine

/-- NEQ: x[b] <- 1 if x[b] differs from mem[a], else 0; the bounds check comes first (R67). -/
def execNeq (b : RegIdx) (a : Addr) (s : State) : Host.Outcome State Fault Refusal :=
  match memRead s (cellAddress a) with
  | .error f => raise f s
  | .ok m => commit (nextPc s) (writeReg b (notEqualWord (readReg s b) m) s)

/-- ADD: x[b] <- x[b] + x[c] modulo 2^32 (R68). -/
def execAdd (b c : RegIdx) (s : State) : Host.Outcome State Fault Refusal :=
  commit (nextPc s) (writeReg b (readReg s b + readReg s c) s)

/-- SUB: x[b] <- x[b] - x[c] modulo 2^32 (R69). -/
def execSub (b c : RegIdx) (s : State) : Host.Outcome State Fault Refusal :=
  commit (nextPc s) (writeReg b (readReg s b - readReg s c) s)

end Sys2Proof.Machine
end

