-- ==== Sys2Proof/Machine/Control.lean ====
section
/-! DEFINITION. JMP and JZ (43_control.md R71 to R73). A target at or beyond P is no fault: the next step's check
ends the run (R73). -/

namespace Sys2Proof.Machine

/-- JMP: pc <- t (R71). -/
def execJmp (t : Target) (s : State) : Host.Outcome State Fault Refusal := commit (targetPc t) s

/-- JZ: pc <- t if x[b] = 0, else the default advance (R72). -/
def execJz (b : RegIdx) (t : Target) (s : State) : Host.Outcome State Fault Refusal :=
  commit (if isZero (readReg s b) then targetPc t else nextPc s) s

end Sys2Proof.Machine
end

