-- ==== Sys2Proof/Machine/DataMovement.lean ====
section
/-! DEFINITION. NOP, LDI, LOAD and STORE (41_data_movement.md R63 to R66). -/

namespace Sys2Proof.Machine

/-- NOP: "no state change besides default advance" (R63). -/
def execNop (s : State) : Host.Outcome State Fault Refusal := commit (nextPc s) s

/-- LDI: x[c] <- zext_32(imm) (R64). -/
def execLdi (imm : Imm) (c : RegIdx) (s : State) : Host.Outcome State Fault Refusal :=
  commit (nextPc s) (writeReg c (zext32 imm) s)

/-- LOAD: x[b] <- MemRead(a, 1); the bounds check comes first (R65). -/
def execLoad (b : RegIdx) (a : Addr) (s : State) : Host.Outcome State Fault Refusal :=
  match memRead s (cellAddress a) with
  | .error f => raise f s
  | .ok v => commit (nextPc s) (writeReg b v s)

/-- STORE: MemWrite(a, 1, x[c]); the bounds check comes first (R66). -/
def execStore (a : Addr) (c : RegIdx) (s : State) : Host.Outcome State Fault Refusal :=
  match memWrite s (cellAddress a) (readReg s c) with
  | .error f => raise f s
  | .ok t => commit (nextPc s) t

end Sys2Proof.Machine
end

