-- ==== Sys2Proof/Machine/InOut.lean ====
section
/-! DEFINITION. IN and OUT (44_io.md R74, R75). -/

namespace Sys2Proof.Machine

/-- IN: x[c] <- InPop(); "execution does not read" the tag (R74, D21). -/
def execInput (_tag : Imm) (c : RegIdx) (s : State) : Host.Outcome State Fault Refusal :=
  commit (nextPc s) (writeReg c (inPop s).1 (inPop s).2)

/-- OUT: append (signed(x[c]), tag) to the output log (R75). -/
def execOutput (tag : Imm) (c : RegIdx) (s : State) : Host.Outcome State Fault Refusal :=
  commit (nextPc s) (outAppend (readReg s c) tag s)

end Sys2Proof.Machine
end

