-- ==== Sys2Proof/Machine/Dispatch.lean ====
section
/-! DEFINITION. The exhaustive dispatch of 40_engine.md R58: one arm per instruction. -/

namespace Sys2Proof.Machine

/-- Execute a decoded instruction: step 3 of the cycle, with its commit or its fault (R58 to R60).
The status and the termination checks are the step's (log 13). -/
def exec (i : Instr) (s : State) : Host.Outcome State Fault Refusal :=
  match i with
  | .nop => Sys2Proof.Machine.execNop s
  | .ldi imm c => Sys2Proof.Machine.execLdi imm c s
  | .load b a => Sys2Proof.Machine.execLoad b a s
  | .store a c => Sys2Proof.Machine.execStore a c s
  | .neq b a => Sys2Proof.Machine.execNeq b a s
  | .add b c => Sys2Proof.Machine.execAdd b c s
  | .sub b c => Sys2Proof.Machine.execSub b c s
  | .jmp t => Sys2Proof.Machine.execJmp t s
  | .jz b t => Sys2Proof.Machine.execJz b t s
  | .input tag c => Sys2Proof.Machine.execInput tag c s
  | .output tag c => Sys2Proof.Machine.execOutput tag c s

end Sys2Proof.Machine
end

