-- ==== Sys2Proof/Machine/Step.lean ====
section
/-! DEFINITION. One step of the fetch-decode-execute cycle (40_engine.md R55 to R61). -/

namespace Sys2Proof.Machine

/-- One step: nothing from a terminal state (R61), then the termination checks (R55), fetch and decode with their
faults (R56, R57), and the instruction (R58 to R60), in the priority of 60_exceptions.md R84. -/
def step (s : State) : Host.Outcome State Fault Refusal :=
  match terminalOutcome s.status with
  | some o => o
  | none =>
    match startCheck s with
    | some st => .next { s with status := st }
    | none =>
      match fetchDecode s with
      | .error e => raise (decodeFault s.pc e) s
      | .ok i => exec i s

/-- s with a table word stored where `step` fetches its next instruction, ready to run it (log 3, log 14). -/
def State.withFetchWord (s : State) (nbits w : Nat) : State := placeWord (tableWord nbits w) s

end Sys2Proof.Machine
end

