-- ==== Sys2Proof/Machine/HostInterface.lean ====
section
/-! DEFINITION. What the host gives a run and gets back (60_exceptions.md R83, R88 to R91; 40_engine.md R54, R61;
70_reset_and_hazards.md R96). -/

namespace Sys2Proof.Machine

/-! ## Launch (R54, R88, R96) -/

/-- The host's presets (R88): a word for any of X[0..15], and (cell address, word) pairs. -/
structure Presets where
  regs : Vector (Option Word) 16
  mem : List (Nat × Word)
deriving DecidableEq, Repr

/-- No presets. -/
def Presets.none : Presets := { regs := Vector.replicate 16 Option.none, mem := [] }

/-- The load error of R54; no step runs (R83). -/
inductive LoadError where
  /-- Code 32: the image's byte count is not a multiple of 5 (R54, R77). -/
  | malformedProgramLength (length : Nat)
deriving DecidableEq, Repr

/-- The numeric code of a load error (R77). -/
def LoadError.code : LoadError → Nat
  | .malformedProgramLength _ => 32

/-- The largest accepted program: 2^31 words (R54, D12). -/
def maxProgramWords : Nat := 2 ^ 31

/-- Write one register preset through the register-0 policy, which discards a preset of a hard-wired R0 (R18). -/
def presetReg (p : Presets) (i : RegIdx) (s : State) : State :=
  match p.regs[i.toNat]'i.isLt with
  | some v => writeReg i v s
  | .none => s

/-- The sixteen register indices. -/
def allRegs : List RegIdx := (List.range 16).map (BitVec.ofNat 4)

/-- The presets "overwrite the zero reset values after reset and before the first step" (R88).
DESIGN CHOICE (log 7): of two memory presets at one address, the later one stands. -/
def applyPresets (p : Presets) (s : State) : State :=
  let s := allRegs.foldl (fun t i => presetReg p i t) s
  { s with mem := p.mem.foldl (fun m c => m.write c.1 c.2) s.mem }

/-- The first memory preset at or beyond MEM_SIZE, which is not a legal launch input (R88). -/
def illegalPreset (cfg : Config) (p : Presets) : Option Nat :=
  (p.mem.find? (fun c => decide (cfg.memSize ≤ c.1))).map Prod.fst

/-- Program load (R54): the length check precedes everything (R84), then the model's two refusals (log 8), then the
reset state with the presets applied and status running. -/
def launch (cfg : Config) (image : List Byte) (inq : List Int) (p : Presets) : Host.Outcome State LoadError Refusal :=
  if image.length % wordBytes ≠ 0 then .fault (.malformedProgramLength image.length)
  else if maxProgramWords < image.length / wordBytes then .refused (.programTooLarge (image.length / wordBytes))
  else
    match illegalPreset cfg p with
    | some a => .refused (.presetOutOfRange a)
    | none => .next (applyPresets p (State.resetWith cfg image inq))

/-! ## A run (R61) -/

/-- At most n steps, stopping where no step is defined. -/
def runSteps : Nat → State → State
  | 0, s => s
  | n + 1, s =>
    match step s with
    | .next t => runSteps n t
    | .fault _ => s
    | .refused _ => s

/-- Steps until the status is terminal: at most STEP_LIMIT completed steps and the one that ends the run (R61). -/
def runToEnd (s : State) : State := runSteps (s.config.stepLimit + 1) s

/-- How a run ended (R83), with the record contents of R77. -/
inductive RunResult where
  | haltedNormal (finalPc : Pc)
  | haltedStepLimit (steps : Nat)
  | haltedFault (f : Fault)
  | malformedProgramLength (length : Nat)
deriving DecidableEq, Repr

/-- The numeric code of a run result (R77). -/
def RunResult.code : RunResult → Nat
  | .haltedNormal _ => 64
  | .haltedStepLimit _ => 65
  | .haltedFault f => f.code
  | .malformedProgramLength n => (LoadError.malformedProgramLength n).code

/-- The result that a final state reports; none while the run goes on (R83). -/
def runResult (s : State) : Option RunResult :=
  match s.status with
  | .running => none
  | .haltedNormal => some (.haltedNormal s.pc)
  | .haltedFault f => some (.haltedFault f)
  | .haltedStepLimit => some (.haltedStepLimit s.steps)

/-- What the host gets back from a whole run (R90): the result and the final state, a load error's result, or the
model's refusal of the launch. -/
inductive RunReport where
  | ended (result : Option RunResult) (final : State)
  | notLoaded (result : RunResult)
  | refused (r : Refusal)
deriving DecidableEq, Repr

/-- Load an image and run it to its end (R61). -/
def runImage (cfg : Config) (image : List Byte) (inq : List Int) (p : Presets) : RunReport :=
  match launch cfg image inq p with
  | .next s => .ended (runResult (runToEnd s)) (runToEnd s)
  | .fault (.malformedProgramLength n) => .notLoaded (.malformedProgramLength n)
  | .refused r => .refused r

/-! ## The memory-dump snapshot (R91) -/

/-- dump(lo, hi): the cells of [lo, hi) clipped to MEM_SIZE, with signed values; empty if the range is empty (R91). -/
def dump (s : State) (lo hi : Nat) : List (Nat × Int) :=
  (List.range (min hi s.config.memSize - lo)).map (fun k => (lo + k, signed (s.mem.read (lo + k))))

end Sys2Proof.Machine
end

