-- ==== Sys2Proof/Safety.lean ====
section
/-! DEFINITION. The terms claims are stated in: what a good state is, how one instruction may change the state, and
what the next word to run is. -/

namespace Sys2Proof.Machine

/-! ## Good states -/

/-- The three halted states are terminal (40_engine.md R61). -/
def Status.terminal : Status → Bool
  | .running => false
  | .haltedNormal => true
  | .haltedFault _ => true
  | .haltedStepLimit => true

/-- What every state of every run meets. -/
structure StateInv (s : State) : Prop where
  /-- The memory is in canonical form (log 6). -/
  memory_canonical : s.mem.wf
  /-- No cell outside the data memory holds anything: cells are 0 to MEM_SIZE - 1 (R20). -/
  memory_bounded : ∀ c ∈ s.mem.cells, c.1 < s.config.memSize
  /-- "X[0] = 0 throughout the run" when R0 is hard-wired (R18). -/
  hardwired_zero : s.config.r0Hardwired = true → s.X 0 = 0
  /-- "pc never exceeds 2^31" (R19). -/
  pc_bounded : s.pc.toNat ≤ 2 ^ 31
  /-- The image is a whole number of words (R50), at most 2^31 of them (R54). -/
  program_whole : s.prog.length % 5 = 0
  program_bounded : programLength s ≤ 2 ^ 31
  /-- The step counter never passes the step budget (R61, R93). -/
  steps_bounded : s.steps ≤ s.config.stepLimit
  /-- The input cursor stays within the input sequence (R22). -/
  cursor_bounded : s.icur ≤ s.inq.length
  /-- Every logged value is a signed 32-bit integer (R23). -/
  log_signed : ∀ e ∈ s.outlog, -(2 ^ 31) ≤ e.value ∧ e.value < 2 ^ 31
  /-- A run logs at most one pair a completed step (R75). -/
  log_bounded : s.outlog.length ≤ s.steps
  /-- A fault record names the pc, and its kind is never RegisterIndexOutOfRange (R80, R82). -/
  fault_record : ∀ f, s.status = .haltedFault f → f.pc = s.pc ∧ f.code ≠ 4

/-- A state of some run: launched, or one step after such a state (R61). -/
inductive Reachable : State → Prop where
  | launched {cfg image inq p s} (h : launch cfg image inq p = .next s) : Reachable s
  | stepped {s t} (hs : Reachable s) (h : step s = .next t) : Reachable t

/-! ## What an instruction changes -/

/-- The instruction completed: pc is npc, one more step is counted (R59), the run goes on as it was, and the
program, the input sequence and the parameters are untouched (R21, R22, R8). -/
structure Completes (s t : State) (npc : Pc) : Prop where
  pc : t.pc = npc
  steps : t.steps = s.steps + 1
  status : t.status = s.status
  config : t.config = s.config
  prog : t.prog = s.prog
  inq : t.inq = s.inq

/-- Every register is unchanged. -/
def KeepsRegs (s t : State) : Prop := ∀ r, t.X r = s.X r

/-- Register d gets v unless it is the hard-wired register 0, which keeps what it holds (R18); every other register
is unchanged. -/
structure SetsReg (s t : State) (d : RegIdx) (v : Word) : Prop where
  written : ¬(s.config.r0Hardwired = true ∧ d = 0) → t.X d = v
  discarded : s.config.r0Hardwired = true ∧ d = 0 → t.X d = s.X d
  others : ∀ r, r ≠ d → t.X r = s.X r

/-- Every memory cell reads as before. -/
def KeepsMemory (s t : State) : Prop := ∀ a, t.mem.read a = s.mem.read a

/-- Cell a reads v, every other cell as before. -/
def SetsCell (s t : State) (a : Nat) (v : Word) : Prop :=
  t.mem.read a = v ∧ ∀ a', a' ≠ a → t.mem.read a' = s.mem.read a'

/-- The input cursor and the output log are unchanged. -/
def KeepsStreams (s t : State) : Prop := t.icur = s.icur ∧ t.outlog = s.outlog

/-- The precise entry to halted-fault: the record goes into status and nothing else changes (R60, R80). -/
def TakesFault (s : State) (f : Fault) (o : Host.Outcome State Fault Refusal) : Prop :=
  o = .next { s with status := .haltedFault f }

/-- The instructions of a list, executed one after another, lead from one state to another. -/
inductive ExecTrace : State → List Instr → State → Prop where
  | done (s) : ExecTrace s [] s
  | more {s t u i is} (h : exec i s = .next t) (rest : ExecTrace t is u) : ExecTrace s (i :: is) u

/-- The register an instruction writes (10_state.md R16, the table's last column). -/
def destination : Instr → Option RegIdx
  | .nop => none
  | .ldi _ c => some c
  | .load b _ => some b
  | .store _ _ => none
  | .neq b _ => some b
  | .add b _ => some b
  | .sub b _ => some b
  | .jmp _ => none
  | .jz _ _ => none
  | .input _ c => some c
  | .output _ _ => none

/-! ## What a step runs -/

/-- The padding bits of each opcode, as the masks of 30_encoding.md R39 give them (less the opcode bits); written
out apart from the decoder's own table. -/
def paddingBits (nibble : Nat) : InstrWord :=
  match nibble with
  | 0 => 0xFFFFFFFFF0
  | 1 => 0xFC00000000
  | 2 => 0x8000000000
  | 3 => 0x8000000000
  | 4 => 0x8000000000
  | 5 => 0xFFFFFFF000
  | 6 => 0xFFFFFFF000
  | 7 => 0xF800000000
  | 8 => 0x8000000000
  | 9 => 0xFC00000000
  | 10 => 0xFC00000000
  | _ => 0

/-- The five bytes at instruction index pc are the bytes of w, byte k being bits 8k+7 to 8k (R32, R56). -/
def FetchesWord (s : State) (w : InstrWord) : Prop :=
  ∀ k, k < 5 → s.prog[5 * s.pc.toNat + k]? = some (w.extractLsb' (8 * k) 8)

/-- The run goes on and its step budget is not spent (R25, R55). -/
def CanStep (s : State) : Prop := s.status = .running ∧ s.steps ≠ s.config.stepLimit

end Sys2Proof.Machine
end

