-- ==== Sys2Proof/Certificates/Slice0/Obligations.lean ====
section
/-! DEFINITION. The statements for the provers. Each docstring names the rule of spec/ it formalises. -/

open Sys2Proof Sys2Proof.Machine

/-! ## Reset and launch -/

/-- 70_reset_and_hazards.md R95: the state after program load and before presets, for every legal image. -/
def Obligations.LaunchCreatesResetState : Prop :=
  ∀ (cfg : Config) (image : List Byte) (inq : List Int), image.length % 5 = 0 → image.length / 5 ≤ 2 ^ 31 →
    ∃ s, launch cfg image inq Presets.none = .next s ∧ (∀ i, s.X i = 0) ∧ s.pc = 0 ∧ (∀ a, s.mem.read a = 0) ∧
      s.prog = image ∧ s.icur = 0 ∧ s.inq = inq ∧ s.outlog = [] ∧ s.steps = 0 ∧ s.status = .running ∧ s.config = cfg

/-- The model's choice (log 2, log 3): State.reset is the launch of the empty image with the default parameters. -/
def Obligations.ResetIsLaunchOfEmptyImage : Prop :=
  launch Config.default [] [] Presets.none = .next State.reset

/-- 40_engine.md R54 and 60_exceptions.md R88: the load error and the model's two refusals. That a too long program
is reported before a preset out of range is the model's choice (log 8). -/
def Obligations.LaunchStopsOnIllegalInput : Prop :=
  ∀ (cfg : Config) (image : List Byte) (inq : List Int) (p : Presets),
    (image.length % 5 ≠ 0 → launch cfg image inq p = .fault (.malformedProgramLength image.length)) ∧
    (image.length % 5 = 0 → 2 ^ 31 < image.length / 5 →
      launch cfg image inq p = .refused (.programTooLarge (image.length / 5))) ∧
    (image.length % 5 = 0 → image.length / 5 ≤ 2 ^ 31 → (∃ c ∈ p.mem, cfg.memSize ≤ c.1) →
      ∃ c ∈ p.mem, cfg.memSize ≤ c.1 ∧ launch cfg image inq p = .refused (.presetOutOfRange c.1))

/-- 60_exceptions.md R88 with 10_state.md R18: presets overwrite the zero reset values, and a preset of a hard-wired
R0 is discarded. That the later of two presets of one cell stands is the model's choice (log 7). -/
def Obligations.LaunchAppliesPresets : Prop :=
  ∀ (cfg : Config) (image : List Byte) (inq : List Int) (p : Presets), image.length % 5 = 0 →
    image.length / 5 ≤ 2 ^ 31 → (∀ c ∈ p.mem, c.1 < cfg.memSize) →
    ∃ s, launch cfg image inq p = .next s ∧
      (∀ i : RegIdx, s.X i = if cfg.r0Hardwired = true ∧ i = 0 then 0 else (p.regs[i.toNat]'i.isLt).getD 0) ∧
      (∀ pre a v post, p.mem = pre ++ (a, v) :: post → (∀ c ∈ post, c.1 ≠ a) → s.mem.read a = v) ∧
      (∀ a, (∀ c ∈ p.mem, c.1 ≠ a) → s.mem.read a = 0) ∧
      s.pc = 0 ∧ s.prog = image ∧ s.inq = inq ∧ s.icur = 0 ∧ s.outlog = [] ∧ s.steps = 0 ∧ s.status = .running ∧
      s.config = cfg

/-! ## The instructions: encoding, effect and frame -/

/-- 41_data_movement.md R63. -/
def Obligations.NopOnlyAdvancesPc : Prop :=
  Instr.nop.word = 0 ∧
  (∀ w : InstrWord, w.toNat % 16 = 0 → w ≠ 0 → decodeWord true w = .error (.nonZeroPadding 0 w)) ∧
  ∀ s, ∃ t, exec .nop s = .next t ∧ Completes s t (s.pc + 1) ∧ KeepsRegs s t ∧ KeepsMemory s t ∧ KeepsStreams s t

/-- 41_data_movement.md R64: the zero-extended constant goes to register C. -/
def Obligations.LdiLoadsConstant : Prop :=
  (∀ (imm : Imm) (c : RegIdx),
    (Instr.ldi imm c).word.toNat = 1 + imm.toNat * 2 ^ 4 + c.toNat * 2 ^ 30 ∧
    ∀ s, ∃ t, exec (.ldi imm c) s = .next t ∧ Completes s t (s.pc + 1) ∧
      SetsReg s t c (BitVec.ofNat 32 imm.toNat) ∧ KeepsMemory s t ∧ KeepsStreams s t) ∧
  (∀ (cfg : Config) (c : Int), encode cfg (.ldi 67108864 c) = .error ⟨.B, .ldi, 67108864, 67108863⟩) ∧
  (∀ (cfg : Config) (b : Int), 0 ≤ b → b ≤ 67108863 → encode cfg (.ldi b 16) = .error ⟨.C, .ldi, 16, 15⟩)

/-- 41_data_movement.md R65: below MEM_SIZE the cell goes to register B; from MEM_SIZE on, the read fault. -/
def Obligations.LoadReadsCellOrFaults : Prop :=
  (∀ (b : RegIdx) (a : Addr), (Instr.load b a).word.toNat = 2 + b.toNat * 2 ^ 4 + a.toNat * 2 ^ 8 ∧
    ∀ s,
      (a.toNat < s.config.memSize → ∃ t, exec (.load b a) s = .next t ∧ Completes s t (s.pc + 1) ∧
        SetsReg s t b (s.mem.read a.toNat) ∧ KeepsMemory s t ∧ KeepsStreams s t) ∧
      (s.config.memSize ≤ a.toNat →
        TakesFault s (.memoryAddressOutOfRange .read a.toNat s.config.memSize s.pc) (exec (.load b a) s))) ∧
  (∀ (cfg : Config) (b c : Int), (cfg.memSize : Int) ≤ c → ∀ w, encode cfg (.load b c) ≠ .ok w)

/-- 41_data_movement.md R66: below MEM_SIZE register C goes to the cell that field B names; from MEM_SIZE on, the
write fault. -/
def Obligations.StoreWritesCellOrFaults : Prop :=
  ∀ (a : Addr) (c : RegIdx), (Instr.store a c).word.toNat = 3 + a.toNat * 2 ^ 4 + c.toNat * 2 ^ 35 ∧
    ∀ s,
      (a.toNat < s.config.memSize → ∃ t, exec (.store a c) s = .next t ∧ Completes s t (s.pc + 1) ∧
        KeepsRegs s t ∧ SetsCell s t a.toNat (readReg s c) ∧ KeepsStreams s t) ∧
      (s.config.memSize ≤ a.toNat →
        TakesFault s (.memoryAddressOutOfRange .write a.toNat s.config.memSize s.pc) (exec (.store a c) s))

/-- 42_arith_compare.md R67: below MEM_SIZE register B becomes 0 if it equals the cell, else 1; from MEM_SIZE on, the
read fault. -/
def Obligations.NeqComparesWithCellOrFaults : Prop :=
  ∀ (b : RegIdx) (a : Addr), (Instr.neq b a).word.toNat = 4 + b.toNat * 2 ^ 4 + a.toNat * 2 ^ 8 ∧
    ∀ s,
      (a.toNat < s.config.memSize → ∃ t, exec (.neq b a) s = .next t ∧ Completes s t (s.pc + 1) ∧
        SetsReg s t b (if readReg s b = s.mem.read a.toNat then 0 else 1) ∧ KeepsMemory s t ∧ KeepsStreams s t) ∧
      (s.config.memSize ≤ a.toNat →
        TakesFault s (.memoryAddressOutOfRange .read a.toNat s.config.memSize s.pc) (exec (.neq b a) s))

/-- 42_arith_compare.md R68: the exact sum of the two register values, modulo 2^32, goes to register B. -/
def Obligations.AddWrapsModulo : Prop :=
  ∀ (b c : RegIdx), (Instr.add b c).word.toNat = 5 + b.toNat * 2 ^ 4 + c.toNat * 2 ^ 8 ∧
    ∀ s, ∃ t, exec (.add b c) s = .next t ∧ Completes s t (s.pc + 1) ∧
      SetsReg s t b (BitVec.ofNat 32 (((readReg s b).toNat + (readReg s c).toNat) % 2 ^ 32)) ∧
      KeepsMemory s t ∧ KeepsStreams s t

/-- 42_arith_compare.md R69: the exact difference of the two register values, modulo 2^32, goes to register B. -/
def Obligations.SubWrapsModulo : Prop :=
  ∀ (b c : RegIdx), (Instr.sub b c).word.toNat = 6 + b.toNat * 2 ^ 4 + c.toNat * 2 ^ 8 ∧
    ∀ s, ∃ t, exec (.sub b c) s = .next t ∧ Completes s t (s.pc + 1) ∧
      SetsReg s t b (BitVec.ofInt 32 (((readReg s b).toNat - (readReg s c).toNat : Int) % 2 ^ 32)) ∧
      KeepsMemory s t ∧ KeepsStreams s t

/-- 43_control.md R71: pc becomes the target, and nothing but pc and the step counter changes. -/
def Obligations.JmpSetsPcToTarget : Prop :=
  (∀ (tgt : Target), (Instr.jmp tgt).word.toNat = 7 + tgt.toNat * 2 ^ 4 ∧
    ∀ s, ∃ t, exec (.jmp tgt) s = .next t ∧ Completes s t (BitVec.ofNat 32 tgt.toNat) ∧ KeepsRegs s t ∧
      KeepsMemory s t ∧ KeepsStreams s t) ∧
  (∀ cfg : Config, encode cfg (.jmp 2147483648) = .error ⟨.B, .jmp, 2147483648, 2147483647⟩)

/-- 43_control.md R72: pc becomes the target if all 32 bits of register B are zero, else the default advance. -/
def Obligations.JzBranchesOnZero : Prop :=
  ∀ (b : RegIdx) (tgt : Target), (Instr.jz b tgt).word.toNat = 8 + b.toNat * 2 ^ 4 + tgt.toNat * 2 ^ 8 ∧
    ∀ s, ∃ t, exec (.jz b tgt) s = .next t ∧
      Completes s t (if (readReg s b).toNat = 0 then BitVec.ofNat 32 tgt.toNat else s.pc + 1) ∧
      KeepsRegs s t ∧ KeepsMemory s t ∧ KeepsStreams s t

/-- 44_io.md R74: the next input value modulo 2^32, or 0 with the cursor unchanged at the end of input, goes to
register C; the tag has no effect. -/
def Obligations.InputPopsIntoRegister : Prop :=
  ∀ (tag : Imm) (c : RegIdx), (Instr.input tag c).word.toNat = 9 + tag.toNat * 2 ^ 4 + c.toNat * 2 ^ 30 ∧
    ∀ s,
      (∀ n, s.inq[s.icur]? = some n → ∃ t, exec (.input tag c) s = .next t ∧ Completes s t (s.pc + 1) ∧
        SetsReg s t c (BitVec.ofInt 32 (n % 2 ^ 32)) ∧ KeepsMemory s t ∧ t.icur = s.icur + 1 ∧
        t.outlog = s.outlog) ∧
      (s.inq.length ≤ s.icur → ∃ t, exec (.input tag c) s = .next t ∧ Completes s t (s.pc + 1) ∧
        SetsReg s t c 0 ∧ KeepsMemory s t ∧ KeepsStreams s t) ∧
      (∀ tag' : Imm, exec (.input tag' c) s = exec (.input tag c) s)

/-- 44_io.md R75: the two's-complement value of register C and the raw tag are appended to the output log, and a
whole run appends at most STEP_LIMIT pairs. -/
def Obligations.OutputAppendsSignedValue : Prop :=
  (∀ (tag : Imm) (c : RegIdx), (Instr.output tag c).word.toNat = 10 + tag.toNat * 2 ^ 4 + c.toNat * 2 ^ 30 ∧
    ∀ s, ∃ t, exec (.output tag c) s = .next t ∧ Completes s t (s.pc + 1) ∧ KeepsRegs s t ∧ KeepsMemory s t ∧
      t.icur = s.icur ∧ t.outlog = s.outlog ++ [⟨(readReg s c).toInt, tag⟩]) ∧
  (∀ cfg image inq p s, launch cfg image inq p = .next s → (runToEnd s).outlog.length ≤ cfg.stepLimit)

/-- 42_arith_compare.md R70: ADD and SUB give the same bits when the operands are read as signed integers. -/
def Obligations.AddSubAgreeWithSignedReading : Prop :=
  ∀ (b c : RegIdx) (s : State),
    (∃ t, exec (.add b c) s = .next t ∧
      SetsReg s t b (BitVec.ofInt 32 (signed (readReg s b) + signed (readReg s c)))) ∧
    (∃ t, exec (.sub b c) s = .next t ∧
      SetsReg s t b (BitVec.ofInt 32 (signed (readReg s b) - signed (readReg s c))))

/-! ## Registers and the whole machine -/

/-- 10_state.md R17 and R18: the register-0 policy on reads, on writes, and over every run. -/
def Obligations.RegisterZeroPolicy : Prop :=
  (∀ s i, readReg s i = if s.config.r0Hardwired = true ∧ i = 0 then 0 else s.X i) ∧
  (∀ s i v, SetsReg s (writeReg i v s) i v) ∧
  (∀ s, Reachable s → s.config.r0Hardwired = true → s.X 0 = 0)

/-- 10_state.md R16 (the table of which instruction writes which register), R20, R22, R23 and 40_engine.md R58: each
component of the state is changed by no instruction but its own. -/
def Obligations.EachComponentHasItsWriters : Prop :=
  ∀ i s t, exec i s = .next t →
    ((∃ a, t.mem.read a ≠ s.mem.read a) → ∃ a c, i = .store a c) ∧
    (t.icur ≠ s.icur → ∃ tag c, i = .input tag c) ∧
    (t.outlog ≠ s.outlog → ∃ tag c, i = .output tag c) ∧
    (∀ r, t.X r ≠ s.X r → destination i = some r) ∧
    (t.pc ≠ s.pc + 1 →
      (t.pc = s.pc ∧ ∃ f, t.status = .haltedFault f) ∨ (∃ tgt, i = .jmp tgt) ∨ ∃ b tgt, i = .jz b tgt)

/-- 20_memory.md R30: after a STORE and any instructions that do not store to its cell, LOAD and NEQ of that cell see
the stored value. -/
def Obligations.ReadsSeeMostRecentStore : Prop :=
  ∀ (s t u : State) (a : Addr) (c b : RegIdx) (is : List Instr), a.toNat < s.config.memSize →
    exec (.store a c) s = .next t → ExecTrace t is u → (∀ a' c', Instr.store a' c' ∈ is → a' ≠ a) →
    (∃ v, exec (.load b a) u = .next v ∧ SetsReg u v b (readReg s c)) ∧
    (∃ v, exec (.neq b a) u = .next v ∧ SetsReg u v b (if readReg u b = readReg s c then 0 else 1))

/-- 10_state.md R23 and R24: no instruction reads the output log or the step counter. Two states that differ in them
alone are taken to states that agree on registers, pc, memory, cursor and status. -/
def Obligations.InstructionsCannotObserveStepsOrLog : Prop :=
  ∀ (i : Instr) (s : State) (n : Nat) (l : List OutEntry),
    ∃ t t', exec i s = .next t ∧ exec i { s with steps := n, outlog := l } = .next t' ∧
      (∀ r, t'.X r = t.X r) ∧ t'.pc = t.pc ∧ (∀ a, t'.mem.read a = t.mem.read a) ∧ t'.icur = t.icur ∧
      t'.status = t.status

/-! ## The step -/

/-- 40_engine.md R55: the two checks at a step's start, the range check first. -/
def Obligations.StepChecksTermination : Prop :=
  ∀ s, s.status = .running →
    (s.prog.length / 5 ≤ s.pc.toNat → step s = .next { s with status := .haltedNormal }) ∧
    (s.pc.toNat < s.prog.length / 5 → s.steps = s.config.stepLimit →
      step s = .next { s with status := .haltedStepLimit })

/-- 40_engine.md R56 to R58: a step runs the instruction decoded from the five bytes at pc. -/
def Obligations.StepRunsDecodedInstruction : Prop :=
  ∀ s w i, CanStep s → FetchesWord s w → decodeWord s.config.strictPadding w = .ok i → step s = exec i s

/-- 60_exceptions.md R78: a fetched word whose low nibble is 11 to 15. -/
def Obligations.StepRaisesUnknownOpcode : Prop :=
  ∀ s w, CanStep s → FetchesWord s w → 10 < w.toNat % 16 →
    TakesFault s (.unknownOpcode (BitVec.ofNat 4 w.toNat) s.pc) (step s)

/-- 60_exceptions.md R79: a fetched word with a known opcode and nonzero padding, under STRICT_PADDING. -/
def Obligations.StepRaisesNonZeroPadding : Prop :=
  ∀ s w, CanStep s → FetchesWord s w → s.config.strictPadding = true → w.toNat % 16 ≤ 10 →
    w &&& paddingBits (w.toNat % 16) ≠ 0 →
    TakesFault s (.nonZeroPadding (BitVec.ofNat 4 w.toNat) (w &&& paddingBits (w.toNat % 16)) s.pc) (step s)

/-- 40_engine.md R61 and 93_implementation_defined.md ("a model has no step only in the terminal states"): a step is
defined exactly while the status is running. What the model answers elsewhere is its choice (log 4). -/
def Obligations.StepIsDefinedExactlyWhileRunning : Prop :=
  ∀ s, (∃ t, step s = .next t) ↔ s.status = .running

/-- 40_engine.md R60 with 60_exceptions.md R82: entering halted-fault changes the status alone, the record names the
pc, and RegisterIndexOutOfRange (code 4) is never raised. -/
def Obligations.FaultsArePrecise : Prop :=
  ∀ s t f, step s = .next t → t.status = .haltedFault f →
    t = { s with status := .haltedFault f } ∧ f.pc = s.pc ∧ (f.code = 1 ∨ f.code = 2 ∨ f.code = 3)

/-- 40_engine.md R59 and 10_state.md R24: a step that goes on counts one instruction; a step that ends the run counts
none and leaves the pc. -/
def Obligations.StepCountsCompletedInstructions : Prop :=
  ∀ s t, step s = .next t →
    (t.status = .running → t.steps = s.steps + 1) ∧ (t.status ≠ .running → t.steps = s.steps ∧ t.pc = s.pc)

/-- 10_state.md R21 and R22, 00_scope.md R8, 20_memory.md R31: no step changes the program buffer, the input sequence
or the parameters. -/
def Obligations.StepKeepsLaunchInputs : Prop :=
  ∀ s t, step s = .next t → t.prog = s.prog ∧ t.inq = s.inq ∧ t.config = s.config

/-- 10_state.md R23: the output log is append-only, and one step appends at most one pair. -/
def Obligations.StepOnlyAppendsToLog : Prop :=
  ∀ s t, step s = .next t → t.outlog = s.outlog ∨ ∃ e, t.outlog = s.outlog ++ [e]

/-- 43_control.md R73: a jump to a target at or beyond P is legal; the next step ends the run in halted-normal with
the final pc at the target. -/
def Obligations.JumpPastEndHaltsNormally : Prop :=
  ∀ s w i (tgt : Target), CanStep s → FetchesWord s w → decodeWord s.config.strictPadding w = .ok i →
    (i = .jmp tgt ∨ ∃ b, i = .jz b tgt ∧ readReg s b = 0) → s.prog.length / 5 ≤ tgt.toNat →
    ∃ t, step s = .next t ∧ t.pc.toNat = tgt.toNat ∧ t.status = .running ∧
      step t = .next { t with status := .haltedNormal }

/-- The host's placed word (the model's choice, log 14): it is what the very next step runs. The placing changes the
program's five bytes at pc (filling the program up to there with zero bytes), the status, which becomes running, and the
step budget, which becomes at least one more than the step counter; every other part of the state is unchanged. -/
def Obligations.PlacedTableWordRunsNext : Prop :=
  ∀ (s : State) (nbits w : Nat) (i : Instr), decodeWord s.config.strictPadding (tableWord nbits w) = .ok i →
    step (s.withFetchWord nbits w) = exec i (s.withFetchWord nbits w) ∧
    (∀ r, (s.withFetchWord nbits w).X r = s.X r) ∧ (s.withFetchWord nbits w).pc = s.pc ∧
    (∀ a, (s.withFetchWord nbits w).mem.read a = s.mem.read a) ∧
    (∀ k, k < s.prog.length → (k < 5 * s.pc.toNat ∨ 5 * s.pc.toNat + 5 ≤ k) →
      (s.withFetchWord nbits w).prog[k]? = s.prog[k]?) ∧
    (s.withFetchWord nbits w).inq = s.inq ∧ (s.withFetchWord nbits w).icur = s.icur ∧
    (s.withFetchWord nbits w).outlog = s.outlog ∧ (s.withFetchWord nbits w).steps = s.steps ∧
    (s.withFetchWord nbits w).status = .running ∧
    (s.withFetchWord nbits w).config.memSize = s.config.memSize ∧
    (s.withFetchWord nbits w).config.r0Hardwired = s.config.r0Hardwired ∧
    (s.withFetchWord nbits w).config.strictPadding = s.config.strictPadding ∧
    (s.withFetchWord nbits w).config.stepLimit = max s.config.stepLimit (s.steps + 1)

/-! ## Invariant and runs -/

/-- The invariant holds of State.reset, which is the model's choice: the spec gives no default STEP_LIMIT and no reset
program or input; log 2 takes STEP_LIMIT 1000, log 3 the empty image and the empty input. -/
def Obligations.InvariantHoldsAtReset : Prop := StateInv State.reset

/-- The invariant holds of every launched state, whatever the image, the input, the presets and the parameters. -/
def Obligations.LaunchEstablishesInvariant : Prop :=
  ∀ cfg image inq p s, launch cfg image inq p = .next s → StateInv s

/-- Every step keeps the invariant, from every state that meets it. -/
def Obligations.StepKeepsInvariant : Prop := ∀ s t, StateInv s → step s = .next t → StateInv t

/-- 40_engine.md R61: from a terminal status no step is defined, and every run ends in one after at most STEP_LIMIT
completed steps. -/
def Obligations.RunEndsWithinStepLimit : Prop :=
  (∀ s, s.status.terminal = true → ∀ t, step s ≠ .next t) ∧
  ∀ s, s.steps ≤ s.config.stepLimit →
    (runToEnd s).status.terminal = true ∧ s.steps ≤ (runToEnd s).steps ∧ (runToEnd s).steps ≤ s.config.stepLimit

/-- 40_engine.md R61 (the source's scenario D) and 43_control.md R71: a jump to itself runs until the step budget is
spent, changes nothing else, and never faults. -/
def Obligations.SelfJumpRunsToTheStepLimit : Prop :=
  ∀ s (tgt : Target), s.status = .running → s.pc = BitVec.ofNat 32 tgt.toNat → FetchesWord s (Instr.jmp tgt).word →
    s.steps ≤ s.config.stepLimit →
    runToEnd s = { s with steps := s.config.stepLimit, status := .haltedStepLimit }

/-- 60_exceptions.md R83: a run report follows the launch and the run. A load error is reported exactly for an image
that is no whole number of words, with its length; a refused launch gives its refusal; a launched state gives the state
its run ends in, with the result that this state's status names. -/
def Obligations.RunReportNamesItsOutcome : Prop :=
  ∀ cfg image inq p,
    (image.length % 5 ≠ 0 → runImage cfg image inq p = .notLoaded (.malformedProgramLength image.length)) ∧
    (∀ r, runImage cfg image inq p = .notLoaded r → image.length % 5 ≠ 0 ∧ r = .malformedProgramLength image.length) ∧
    (∀ n, launch cfg image inq p = .fault (.malformedProgramLength n) →
      n = image.length ∧ runImage cfg image inq p = .notLoaded (.malformedProgramLength n)) ∧
    (∀ r, launch cfg image inq p = .refused r → runImage cfg image inq p = .refused r) ∧
    ∀ s, launch cfg image inq p = .next s →
      ((runToEnd s).status = .haltedNormal ∧
        runImage cfg image inq p = .ended (some (.haltedNormal (runToEnd s).pc)) (runToEnd s)) ∨
      ((runToEnd s).status = .haltedStepLimit ∧ (runToEnd s).steps = cfg.stepLimit ∧
        runImage cfg image inq p = .ended (some (.haltedStepLimit (runToEnd s).steps)) (runToEnd s)) ∨
      ∃ f, (runToEnd s).status = .haltedFault f ∧
        runImage cfg image inq p = .ended (some (.haltedFault f)) (runToEnd s)

/-! ## Encoder and decoder -/

/-- 30_encoding.md R41 and R43: the encoder gives a word for exactly the well-formed records; it never masks. -/
def Obligations.EncodeAcceptsExactlyWellFormed : Prop :=
  ∀ (cfg : Config) (r : Record), (∃ w, encode cfg r = .ok w) ↔ r.wellFormed cfg = true

/-- 30_encoding.md R42: the error names the field, the operation, the offending value and the field's maximum, and
field B is checked first; a negative operand is an error too. -/
def Obligations.EncodeNamesFirstFieldOutOfRange : Prop :=
  (∀ (cfg : Config) (r : Record), (∃ v ∈ r.operands, v < 0) → ∃ e, encode cfg r = .error e) ∧
  ∀ (cfg : Config) (r : Record) (e : FieldOutOfRange), encode cfg r = .error e →
    e.op = r.opcode ∧ (e.value < 0 ∨ (e.max : Int) < e.value) ∧
    (e.field = .B → r.operands[0]? = some e.value ∧ (layout r.opcode).b.map (Kind.max cfg) = some e.max) ∧
    (e.field = .C → r.operands[1]? = some e.value ∧ (layout r.opcode).c.map (Kind.max cfg) = some e.max ∧
      ∃ b m, r.operands[0]? = some b ∧ (layout r.opcode).b.map (Kind.max cfg) = some m ∧ 0 ≤ b ∧ b ≤ (m : Int))

/-- 30_encoding.md R48: decoding the bytes of an encoded well-formed record gives the record back, under either
setting of STRICT_PADDING. -/
def Obligations.DecodeInvertsEncode : Prop :=
  ∀ (cfg : Config) (strict : Bool) (r : Record), r.wellFormed cfg = true →
    ∃ w i, encode cfg r = .ok w ∧ decode strict (bytesOfWord w) = .ok i ∧ i.toRecord = r

/-- 30_encoding.md R47: the word of every decoded instruction, whatever its address, decodes to that instruction,
with every operand at every value its field holds. -/
def Obligations.DecodeReadsEveryInstructionWord : Prop :=
  ∀ (strict : Bool) (i : Instr), decode strict (bytesOfWord i.word) = .ok i

/-- 30_encoding.md R49: encoding a decoded word gives the word back (its padding cleared when padding is ignored),
and both maps are injective. -/
def Obligations.EncodeInvertsDecode : Prop :=
  (∀ (cfg : Config) (w : InstrWord) (i : Instr), decodeWord true w = .ok i → i.wellFormed cfg = true →
    encode cfg i.toRecord = .ok w) ∧
  (∀ (cfg : Config) (w : InstrWord) (i : Instr), decodeWord false w = .ok i → i.wellFormed cfg = true →
    encode cfg i.toRecord = .ok (w &&& ~~~ paddingBits (w.toNat % 16))) ∧
  (∀ (cfg : Config) (r r' : Record) (w : InstrWord), encode cfg r = .ok w → encode cfg r' = .ok w → r = r') ∧
  (∀ (w w' : InstrWord) (i : Instr), decodeWord true w = .ok i → decodeWord true w' = .ok i → w = w')

/-- 30_encoding.md R45 and R46: which words decode, which fail and how; ignored padding decodes as if it were 0. -/
def Obligations.DecodeClassifiesEveryWord : Prop :=
  ∀ (strict : Bool) (w : InstrWord),
    (10 < w.toNat % 16 → decodeWord strict w = .error (.unknownOpcode (BitVec.ofNat 4 w.toNat))) ∧
    (w.toNat % 16 ≤ 10 → strict = true → w &&& paddingBits (w.toNat % 16) ≠ 0 →
      decodeWord strict w = .error (.nonZeroPadding (BitVec.ofNat 4 w.toNat) (w &&& paddingBits (w.toNat % 16)))) ∧
    (w.toNat % 16 ≤ 10 → (strict = false ∨ w &&& paddingBits (w.toNat % 16) = 0) →
      ∃ i, decodeWord strict w = .ok i ∧ decodeWord true (w &&& ~~~ paddingBits (w.toNat % 16)) = .ok i)

/-- 95_test_vectors.md: one word of each family, written out in image bytes, decodes as the spec says. -/
def Obligations.DecodesSpecExampleWords : Prop :=
  decode true #v[0x42, 0x05, 0x00, 0x00, 0x00] = .ok (.load 4 5) ∧
  decode true #v[0x53, 0x00, 0x00, 0x00, 0x18] = .ok (.store 5 3) ∧
  decode true #v[0x25, 0x01, 0x00, 0x00, 0x00] = .ok (.add 2 1) ∧
  decode true #v[0x18, 0x03, 0x00, 0x00, 0x00] = .ok (.jz 1 3) ∧
  decode true #v[0xFA, 0xFF, 0xFF, 0x7F, 0x01] = .ok (.output 67108863 5)

/-- 30_encoding.md R50: an image encoded from well-formed records, once launched, is fetched at index k as the word of
record k, and decodes to that record. -/
def Obligations.EncodedImageFetchesItsRecords : Prop :=
  ∀ (cfg : Config) (rs : List Record), (∀ r ∈ rs, r.wellFormed cfg = true) →
    ∃ image, encodeImage cfg rs = .ok image ∧ image.length = 5 * rs.length ∧
      ∀ inq p s, launch cfg image inq p = .next s → ∀ k r, rs[k]? = some r →
        ∃ w i, encode cfg r = .ok w ∧ FetchesWord { s with pc := BitVec.ofNat 32 k } w ∧
          fetchDecode { s with pc := BitVec.ofNat 32 k } = .ok i ∧ i.toRecord = r

/-! ## What the host reads -/

/-- 60_exceptions.md R91: the dump lists exactly the cells of [lo, hi) clipped to MEM_SIZE, in order, with signed
values. -/
def Obligations.DumpListsClippedRange : Prop :=
  ∀ (s : State) (lo hi : Nat),
    (dump s lo hi).map Prod.fst = List.range' lo (min hi s.config.memSize - lo) ∧
    ∀ c ∈ dump s lo hi, c.2 = (s.mem.read c.1).toInt

/-- 60_exceptions.md R77: the codes of every outcome and error. -/
def Obligations.OutcomeCodes : Prop :=
  (∀ n pc, (Fault.unknownOpcode n pc).code = 1) ∧ (∀ n m pc, (Fault.nonZeroPadding n m pc).code = 2) ∧
  (∀ k a b pc, (Fault.memoryAddressOutOfRange k a b pc).code = 3) ∧
  (∀ r b pc, (Fault.registerIndexOutOfRange r b pc).code = 4) ∧ (∀ e : FieldOutOfRange, e.code = 16) ∧
  (∀ n, (DecodeError.unknownOpcode n).code = 17) ∧ (∀ n m, (DecodeError.nonZeroPadding n m).code = 18) ∧
  (∀ n, (LoadError.malformedProgramLength n).code = 32) ∧ (∀ pc, (RunResult.haltedNormal pc).code = 64) ∧
  (∀ n, (RunResult.haltedStepLimit n).code = 65)
end

