-- ==== Sys2Proof/Laws/Encoding.lean ====
section
/-! SUPPORT. The laws of packing, extraction and byte order that encoding claims rest on. -/

namespace Sys2Proof

/-- Placing a field above everything packed so far adds the shifted value: no bit overlaps. -/
theorem or_placed_toNat (w : InstrWord) (n off width : Nat) (hw : w.toNat < 2 ^ off) (hn : n < 2 ^ width)
    (hfit : off + width ≤ 40) : (w ||| (BitVec.ofInt 40 (n : Int) <<< off)).toNat = w.toNat + n * 2 ^ off := by
  have hlt : n * 2 ^ off < 2 ^ 40 := by
    calc n * 2 ^ off < 2 ^ width * 2 ^ off := Nat.mul_lt_mul_of_pos_right hn (Nat.two_pow_pos off)
      _ = 2 ^ (off + width) := by rw [Nat.add_comm, Nat.pow_add]
      _ ≤ 2 ^ 40 := Nat.pow_le_pow_right (by decide) hfit
  have hn40 : n < 2 ^ 40 := Nat.lt_of_le_of_lt (Nat.le_mul_of_pos_right n (Nat.two_pow_pos off)) hlt
  have hv : (BitVec.ofInt 40 (n : Int) <<< off).toNat = n <<< off := by
    rw [BitVec.ofInt_natCast, BitVec.toNat_shiftLeft, BitVec.toNat_ofNat, Nat.mod_eq_of_lt hn40,
      Nat.mod_eq_of_lt (by rwa [Nat.shiftLeft_eq])]
  rw [BitVec.toNat_or, hv, Nat.or_comm, ← Nat.shiftLeft_add_eq_or_of_lt hw, Nat.shiftLeft_eq, Nat.add_comm]

/-- A field of a word as a number: shift down, keep the width. -/
theorem extract_toNat (w : InstrWord) (off len : Nat) : (w.extractLsb' off len).toNat = w.toNat / 2 ^ off % 2 ^ len := by
  rw [BitVec.extractLsb'_toNat, Nat.shiftRight_eq_div_pow]

/-- Reading a word's bytes back gives the word (30_encoding.md R32). -/
@[simp] theorem wordOfBytes_bytesOfWord (w : InstrWord) : wordOfBytes (bytesOfWord w) = w := by
  have e1 : w.extractLsb' 32 8 ++ w.extractLsb' 24 8 = w.extractLsb' 24 16 :=
    BitVec.extractLsb'_append_extractLsb'_eq_extractLsb' rfl
  have e2 : w.extractLsb' 24 16 ++ w.extractLsb' 16 8 = w.extractLsb' 16 24 :=
    BitVec.extractLsb'_append_extractLsb'_eq_extractLsb' rfl
  have e3 : w.extractLsb' 16 24 ++ w.extractLsb' 8 8 = w.extractLsb' 8 32 :=
    BitVec.extractLsb'_append_extractLsb'_eq_extractLsb' rfl
  have e4 : w.extractLsb' 8 32 ++ w.extractLsb' 0 8 = w.extractLsb' 0 40 :=
    BitVec.extractLsb'_append_extractLsb'_eq_extractLsb' rfl
  show w.extractLsb' 32 8 ++ w.extractLsb' 24 8 ++ w.extractLsb' 16 8 ++ w.extractLsb' 8 8 ++ w.extractLsb' 0 8 = w
  rw [e1, e2, e3, e4, BitVec.extractLsb'_eq_self]

@[simp] theorem bytesOfWord_length (w : InstrWord) : (bytesOfWord w).toList.length = 5 := by simp

/-- Byte k of a word's bytes. -/
theorem bytesOfWord_getElem (w : InstrWord) (k : Nat) (hk : k < 5) :
    (bytesOfWord w)[k] = w.extractLsb' (8 * k) 8 := by
  obtain rfl | rfl | rfl | rfl | rfl : k = 0 ∨ k = 1 ∨ k = 2 ∨ k = 3 ∨ k = 4 := by omega
  all_goals rfl

/-- The five bytes decide the word: if byte k is bits 8k+7 to 8k of w for every k, the word is w. -/
theorem wordOfBytes_eq (bs : Vector Byte 5) (w : InstrWord)
    (h : ∀ k, (hk : k < 5) → bs[k] = w.extractLsb' (8 * k) 8) : wordOfBytes bs = w := by
  have hb : bs = bytesOfWord w := by
    ext k hk : 1
    rw [h k hk, bytesOfWord_getElem w k hk]
  rw [hb, wordOfBytes_bytesOfWord]

/-- Appending a byte below a vector adds it (the byte is the low end). -/
theorem append_byte_toNat {n : Nat} (x : BitVec n) (b : Byte) : (x ++ b).toNat = x.toNat * 2 ^ 8 + b.toNat := by
  rw [BitVec.toNat_append, ← Nat.shiftLeft_add_eq_or_of_lt b.isLt, Nat.shiftLeft_eq]

/-- The word of five bytes as a number: byte 0 lowest. -/
theorem wordOfBytes_toNat (bs : Vector Byte 5) : (wordOfBytes bs).toNat =
    (((bs[4].toNat * 2 ^ 8 + bs[3].toNat) * 2 ^ 8 + bs[2].toNat) * 2 ^ 8 + bs[1].toNat) * 2 ^ 8 + bs[0].toNat := by
  show (bs[4] ++ bs[3] ++ bs[2] ++ bs[1] ++ bs[0] : BitVec (8 + 8 + 8 + 8 + 8)).toNat = _
  simp only [append_byte_toNat]

/-- Splitting a word of five bytes gives the bytes back (30_encoding.md R32). -/
@[simp] theorem bytesOfWord_wordOfBytes (bs : Vector Byte 5) : bytesOfWord (wordOfBytes bs) = bs := by
  ext j hj : 1
  rw [bytesOfWord_getElem _ j hj]
  apply BitVec.eq_of_toNat_eq
  rw [extract_toNat, wordOfBytes_toNat]
  have h0 := bs[0].isLt
  have h1 := bs[1].isLt
  have h2 := bs[2].isLt
  have h3 := bs[3].isLt
  obtain rfl | rfl | rfl | rfl | rfl : j = 0 ∨ j = 1 ∨ j = 2 ∨ j = 3 ∨ j = 4 := by omega
  all_goals omega

/-- The opcode nibble as a number. -/
theorem opcodeNibble_toNat (w : InstrWord) : (opcodeNibble w).toNat = w.toNat % 16 := by
  simp [opcodeNibble]

/-- The nibble of an operation names it. -/
@[simp] theorem ofNibble_code (op : Opcode) : Opcode.ofNibble op.code = some op := by cases op <;> rfl

/-- A nibble that names an operation is its code. -/
theorem code_of_ofNibble {n : BitVec 4} {op : Opcode} (h : Opcode.ofNibble n = some op) : op.code = n := by
  revert n op; decide

/-- The eleven codes are 0 to 10: a nibble names no operation exactly when it is above 10 (R45). -/
theorem ofNibble_none_iff (n : BitVec 4) : Opcode.ofNibble n = none ↔ 10 < n.toNat := by
  revert n; decide

/-- Masking off everything below bit k keeps the quotient by 2^k. -/
theorem and_high_eq_zero_iff (w : InstrWord) (k : Nat) :
    w &&& (BitVec.allOnes 40 <<< k) = 0 ↔ w.toNat < 2 ^ k := by
  constructor
  · intro h
    refine Nat.lt_pow_two_of_testBit _ fun i hi => ?_
    have := congrArg (fun x => x.getLsbD i) h
    simp only [BitVec.getLsbD_and, BitVec.getLsbD_shiftLeft, BitVec.getLsbD_allOnes] at this
    by_cases h40 : i < 40
    · have hik : i - k < 40 := by omega
      have hnk : ¬ i < k := by omega
      simpa [h40, hik, hnk, BitVec.getLsbD] using this
    · exact Nat.testBit_lt_two_pow (Nat.lt_of_lt_of_le w.isLt (Nat.pow_le_pow_right (by decide) (by omega)))
  · intro h
    ext i hi
    by_cases hik : i < k
    · simp [hik]
    · have : w.toNat.testBit i = false :=
        Nat.testBit_lt_two_pow (Nat.lt_of_lt_of_le h (Nat.pow_le_pow_right (by decide) (by omega)))
      simp [← BitVec.getLsbD_eq_getElem, BitVec.getLsbD, this]

/-- A word has no padding bit set exactly when it is below 2^(padding start). -/
theorem and_padMask_eq_zero_iff (w : InstrWord) (l : Layout) :
    w &&& padMask l = 0 ↔ w.toNat < 2 ^ paddingStart l := and_high_eq_zero_iff w _

/-! ## The decoded fields of each operation, by their bits (R38) -/

theorem assemble_nop (w : InstrWord) : assemble .nop w = .nop := rfl
theorem assemble_jmp (w : InstrWord) : assemble .jmp w = .jmp (w.extractLsb' 4 31) := rfl
theorem assemble_ldi (w : InstrWord) : assemble .ldi w = .ldi (w.extractLsb' 4 26) (w.extractLsb' 30 4) := rfl
theorem assemble_load (w : InstrWord) : assemble .load w = .load (w.extractLsb' 4 4) (w.extractLsb' 8 31) := rfl
theorem assemble_store (w : InstrWord) : assemble .store w = .store (w.extractLsb' 4 31) (w.extractLsb' 35 4) := rfl
theorem assemble_neq (w : InstrWord) : assemble .neq w = .neq (w.extractLsb' 4 4) (w.extractLsb' 8 31) := rfl
theorem assemble_add (w : InstrWord) : assemble .add w = .add (w.extractLsb' 4 4) (w.extractLsb' 8 4) := rfl
theorem assemble_sub (w : InstrWord) : assemble .sub w = .sub (w.extractLsb' 4 4) (w.extractLsb' 8 4) := rfl
theorem assemble_jz (w : InstrWord) : assemble .jz w = .jz (w.extractLsb' 4 4) (w.extractLsb' 8 31) := rfl
theorem assemble_input (w : InstrWord) : assemble .input w = .input (w.extractLsb' 4 26) (w.extractLsb' 30 4) := rfl
theorem assemble_output (w : InstrWord) : assemble .output w = .output (w.extractLsb' 4 26) (w.extractLsb' 30 4) := rfl

/-! ## The fields of each record, and the encoder's range check -/

@[simp] theorem fieldValues_nop : Record.nop.fieldValues = [] := rfl
@[simp] theorem fieldValues_jmp (b : Int) : (Record.jmp b).fieldValues = [(⟨.B, .target, 4⟩, b)] := rfl
@[simp] theorem fieldValues_ldi (b c : Int) :
    (Record.ldi b c).fieldValues = [(⟨.B, .const, 4⟩, b), (⟨.C, .reg, 30⟩, c)] := rfl
@[simp] theorem fieldValues_load (b c : Int) :
    (Record.load b c).fieldValues = [(⟨.B, .reg, 4⟩, b), (⟨.C, .addr, 8⟩, c)] := rfl
@[simp] theorem fieldValues_store (b c : Int) :
    (Record.store b c).fieldValues = [(⟨.B, .addr, 4⟩, b), (⟨.C, .reg, 35⟩, c)] := rfl
@[simp] theorem fieldValues_neq (b c : Int) :
    (Record.neq b c).fieldValues = [(⟨.B, .reg, 4⟩, b), (⟨.C, .addr, 8⟩, c)] := rfl
@[simp] theorem fieldValues_add (b c : Int) :
    (Record.add b c).fieldValues = [(⟨.B, .reg, 4⟩, b), (⟨.C, .reg, 8⟩, c)] := rfl
@[simp] theorem fieldValues_sub (b c : Int) :
    (Record.sub b c).fieldValues = [(⟨.B, .reg, 4⟩, b), (⟨.C, .reg, 8⟩, c)] := rfl
@[simp] theorem fieldValues_jz (b c : Int) :
    (Record.jz b c).fieldValues = [(⟨.B, .reg, 4⟩, b), (⟨.C, .target, 8⟩, c)] := rfl
@[simp] theorem fieldValues_input (b c : Int) :
    (Record.input b c).fieldValues = [(⟨.B, .const, 4⟩, b), (⟨.C, .reg, 30⟩, c)] := rfl
@[simp] theorem fieldValues_output (b c : Int) :
    (Record.output b c).fieldValues = [(⟨.B, .const, 4⟩, b), (⟨.C, .reg, 30⟩, c)] := rfl

/-- No field is out of range exactly when every operand lies between 0 and its field's maximum (R41). -/
theorem firstViolation_eq_none_iff (cfg : Config) (op : Opcode) : ∀ l : List (Field × Int),
    firstViolation cfg op l = none ↔ ∀ fv ∈ l, 0 ≤ fv.2 ∧ fv.2 ≤ (fv.1.kind.max cfg : Int)
  | [] => by simp [firstViolation]
  | (f, v) :: rest => by
    have ih := firstViolation_eq_none_iff cfg op rest
    by_cases h : v < 0 ∨ (f.kind.max cfg : Int) < v
    · simp only [firstViolation, h, if_true, List.mem_cons, forall_eq_or_imp]
      simp only [reduceCtorEq, false_iff, not_and_or, not_le]
      exact .inl h
    · simp only [firstViolation, h, if_false, ih, List.mem_cons, forall_eq_or_imp]
      rw [not_or, not_lt, not_lt] at h
      exact ⟨fun hr => ⟨h, hr⟩, fun hr => hr.2⟩

/-- What the encoder answers: the packed word when every operand is in range, else the first violation (R41). -/
theorem encode_eq_ok_iff (cfg : Config) (r : Record) (w : InstrWord) :
    encode cfg r = .ok w ↔ firstViolation cfg r.opcode r.fieldValues = none ∧ pack r = w := by
  unfold encode
  cases firstViolation cfg r.opcode r.fieldValues <;> simp

theorem encode_eq_error_iff (cfg : Config) (r : Record) (e : FieldOutOfRange) :
    encode cfg r = .error e ↔ firstViolation cfg r.opcode r.fieldValues = some e := by
  unfold encode
  cases firstViolation cfg r.opcode r.fieldValues <;> simp

end Sys2Proof
end

