-- ==== Sys2Proof/Laws/Memory.lean ====
section
/-! SUPPORT. The memory's basic laws: a cell reads what was last written to it, every other cell is left alone, and
every operation keeps the canonical form. -/

namespace Sys2Proof.Machine

theorem lookupCell_insertCell_self (a : Nat) (v : Word) :
    ∀ l : List (Nat × Word), (∀ c ∈ l, c.1 ≠ a) → lookupCell (insertCell a v l) a = v
  | [], _ => by simp [insertCell, lookupCell]
  | (b, u) :: rest, h => by
    have hb : a ≠ b := fun e => h (b, u) (by simp) e.symm
    have ih := lookupCell_insertCell_self a v rest (fun c hc => h c (by simp [hc]))
    unfold insertCell
    split <;> simp [lookupCell, hb, ih]

theorem lookupCell_insertCell_other (a a' : Nat) (v : Word) (hne : a' ≠ a) :
    ∀ l : List (Nat × Word), lookupCell (insertCell a v l) a' = lookupCell l a'
  | [] => by simp [insertCell, lookupCell, hne]
  | (b, u) :: rest => by
    have ih := lookupCell_insertCell_other a a' v hne rest
    unfold insertCell
    split <;> simp [lookupCell, hne, ih]

theorem lookupCell_absent (a : Nat) : ∀ l : List (Nat × Word), (∀ c ∈ l, c.1 ≠ a) → lookupCell l a = 0
  | [], _ => rfl
  | (b, u) :: rest, h => by
    have hb : a ≠ b := fun e => h (b, u) (by simp) e.symm
    simp [lookupCell, hb, lookupCell_absent a rest (fun c hc => h c (by simp [hc]))]

theorem lookupCell_filter_other (a a' : Nat) (hne : a' ≠ a) :
    ∀ l : List (Nat × Word), lookupCell (l.filter (fun c => c.1 != a)) a' = lookupCell l a'
  | [] => rfl
  | (b, u) :: rest => by
    have ih := lookupCell_filter_other a a' hne rest
    by_cases hb : b = a
    · subst hb; simp [lookupCell, hne, ih]
    · simp [lookupCell, hb, ih]

theorem filter_ne_absent (a : Nat) (l : List (Nat × Word)) : ∀ c ∈ l.filter (fun c => c.1 != a), c.1 ≠ a := by
  intro c hc
  simpa using (List.mem_filter.mp hc).2

/-- A cell reads what was written to it (20_memory.md R27, R30). -/
@[simp] theorem read_write_self (m : Memory) (a : Nat) (v : Word) : (m.write a v).read a = v := by
  unfold Memory.write Memory.read
  split
  · next h => simp [lookupCell_absent a _ (filter_ne_absent a _), h]
  · exact lookupCell_insertCell_self a v _ (filter_ne_absent a _)

/-- A write leaves every other cell alone. -/
theorem read_write_other (m : Memory) (a a' : Nat) (v : Word) (hne : a' ≠ a) :
    (m.write a v).read a' = m.read a' := by
  unfold Memory.write Memory.read
  split
  · exact lookupCell_filter_other a a' hne _
  · rw [lookupCell_insertCell_other a a' v hne, lookupCell_filter_other a a' hne]

/-- Both laws in one: the read of any cell after a write. -/
theorem read_write (m : Memory) (a a' : Nat) (v : Word) :
    (m.write a v).read a' = if a' = a then v else m.read a' := by
  split
  · next h => subst h; exact read_write_self m a' v
  · next h => exact read_write_other m a a' v h

@[simp] theorem read_empty (a : Nat) : (⟨[]⟩ : Memory).read a = 0 := rfl

theorem mem_insertCell (a : Nat) (v : Word) (c : Nat × Word) :
    ∀ l : List (Nat × Word), c ∈ insertCell a v l ↔ c = (a, v) ∨ c ∈ l
  | [] => by simp [insertCell]
  | (b, u) :: rest => by
    unfold insertCell
    split
    · simp
    · simp [mem_insertCell a v c rest]
      tauto

theorem insertCell_rising (a : Nat) (v : Word) :
    ∀ l : List (Nat × Word), l.Pairwise (fun c d => c.1 < d.1) → (∀ c ∈ l, c.1 ≠ a) →
      (insertCell a v l).Pairwise (fun c d => c.1 < d.1)
  | [], _, _ => by simp [insertCell]
  | (b, u) :: rest, hp, hne => by
    rw [List.pairwise_cons] at hp
    unfold insertCell
    split
    · next hab =>
      refine List.pairwise_cons.mpr ⟨?_, List.pairwise_cons.mpr hp⟩
      intro c hc
      rcases List.mem_cons.mp hc with rfl | hc
      · exact hab
      · exact Nat.lt_trans hab (hp.1 c hc)
    · next hab =>
      have hba : b < a := by
        have : b ≠ a := hne (b, u) (by simp)
        omega
      refine List.pairwise_cons.mpr ⟨?_, insertCell_rising a v rest hp.2 (fun c hc => hne c (by simp [hc]))⟩
      intro c hc
      rcases (mem_insertCell a v c rest).mp hc with rfl | hc
      · exact hba
      · exact hp.1 c hc

/-- The reset memory is in canonical form. -/
theorem wf_empty : (⟨[]⟩ : Memory).wf := by simp [Memory.wf]

/-- A listed cell after a write is the one written or was listed before. -/
theorem mem_write_cells (m : Memory) (a : Nat) (v : Word) (c : Nat × Word) (hc : c ∈ (m.write a v).cells) :
    (c = (a, v) ∧ v ≠ 0) ∨ c ∈ m.cells := by
  unfold Memory.write at hc
  split at hc
  · exact .inr (List.mem_filter.mp hc).1
  · next hv =>
    rcases (mem_insertCell a v c _).mp hc with h | h
    · exact .inl ⟨h, hv⟩
    · exact .inr (List.mem_filter.mp h).1

/-- Every write keeps the canonical form. -/
theorem write_keeps_wf (m : Memory) (a : Nat) (v : Word) (h : m.wf) : (m.write a v).wf := by
  refine ⟨?_, ?_⟩
  · have hf := h.1.filter (fun c => c.1 != a)
    unfold Memory.write
    split
    · exact hf
    · exact insertCell_rising a v _ hf (filter_ne_absent a _)
  · intro c hc
    rcases mem_write_cells m a v c hc with ⟨rfl, hv⟩ | hc
    · exact hv
    · exact h.2 c hc

end Sys2Proof.Machine
end

