-- ==== Sys2Proof/Laws/State.lean ====
section
/-! SUPPORT. One lemma per field for each named update of the state, so that no proof unfolds an update. -/

namespace Sys2Proof.Machine

section ResetWith
variable (cfg : Config) (image : List Byte) (inq : List Int)

@[simp] theorem resetWith_config : (State.resetWith cfg image inq).config = cfg := rfl
@[simp] theorem resetWith_pc : (State.resetWith cfg image inq).pc = 0 := rfl
@[simp] theorem resetWith_mem : (State.resetWith cfg image inq).mem = ⟨[]⟩ := rfl
@[simp] theorem resetWith_prog : (State.resetWith cfg image inq).prog = image := rfl
@[simp] theorem resetWith_inq : (State.resetWith cfg image inq).inq = inq := rfl
@[simp] theorem resetWith_icur : (State.resetWith cfg image inq).icur = 0 := rfl
@[simp] theorem resetWith_outlog : (State.resetWith cfg image inq).outlog = [] := rfl
@[simp] theorem resetWith_steps : (State.resetWith cfg image inq).steps = 0 := rfl
@[simp] theorem resetWith_status : (State.resetWith cfg image inq).status = .running := rfl
@[simp] theorem resetWith_X (i : RegIdx) : (State.resetWith cfg image inq).X i = 0 := by
  simp [State.X, State.resetWith]

end ResetWith

section WriteReg
variable (i : RegIdx) (v : Word) (s : State)

@[simp] theorem writeReg_config : (writeReg i v s).config = s.config := by unfold writeReg; split <;> rfl
@[simp] theorem writeReg_pc : (writeReg i v s).pc = s.pc := by unfold writeReg; split <;> rfl
@[simp] theorem writeReg_mem : (writeReg i v s).mem = s.mem := by unfold writeReg; split <;> rfl
@[simp] theorem writeReg_prog : (writeReg i v s).prog = s.prog := by unfold writeReg; split <;> rfl
@[simp] theorem writeReg_inq : (writeReg i v s).inq = s.inq := by unfold writeReg; split <;> rfl
@[simp] theorem writeReg_icur : (writeReg i v s).icur = s.icur := by unfold writeReg; split <;> rfl
@[simp] theorem writeReg_outlog : (writeReg i v s).outlog = s.outlog := by unfold writeReg; split <;> rfl
@[simp] theorem writeReg_steps : (writeReg i v s).steps = s.steps := by unfold writeReg; split <;> rfl
@[simp] theorem writeReg_status : (writeReg i v s).status = s.status := by unfold writeReg; split <;> rfl

end WriteReg

section OutAppend
variable (v : Word) (tag : Imm) (s : State)

@[simp] theorem outAppend_config : (outAppend v tag s).config = s.config := rfl
@[simp] theorem outAppend_regs : (outAppend v tag s).regs = s.regs := rfl
@[simp] theorem outAppend_X (i : RegIdx) : (outAppend v tag s).X i = s.X i := rfl
@[simp] theorem outAppend_pc : (outAppend v tag s).pc = s.pc := rfl
@[simp] theorem outAppend_mem : (outAppend v tag s).mem = s.mem := rfl
@[simp] theorem outAppend_prog : (outAppend v tag s).prog = s.prog := rfl
@[simp] theorem outAppend_inq : (outAppend v tag s).inq = s.inq := rfl
@[simp] theorem outAppend_icur : (outAppend v tag s).icur = s.icur := rfl
@[simp] theorem outAppend_outlog : (outAppend v tag s).outlog = s.outlog ++ [⟨signed v, tag⟩] := rfl
@[simp] theorem outAppend_steps : (outAppend v tag s).steps = s.steps := rfl
@[simp] theorem outAppend_status : (outAppend v tag s).status = s.status := rfl

end OutAppend

section InPop
variable (s : State)

@[simp] theorem inPop_config : (inPop s).2.config = s.config := by unfold inPop; split <;> rfl
@[simp] theorem inPop_regs : (inPop s).2.regs = s.regs := by unfold inPop; split <;> rfl
@[simp] theorem inPop_X (i : RegIdx) : (inPop s).2.X i = s.X i := by unfold inPop; split <;> rfl
@[simp] theorem inPop_pc : (inPop s).2.pc = s.pc := by unfold inPop; split <;> rfl
@[simp] theorem inPop_mem : (inPop s).2.mem = s.mem := by unfold inPop; split <;> rfl
@[simp] theorem inPop_prog : (inPop s).2.prog = s.prog := by unfold inPop; split <;> rfl
@[simp] theorem inPop_inq : (inPop s).2.inq = s.inq := by unfold inPop; split <;> rfl
@[simp] theorem inPop_outlog : (inPop s).2.outlog = s.outlog := by unfold inPop; split <;> rfl
@[simp] theorem inPop_steps : (inPop s).2.steps = s.steps := by unfold inPop; split <;> rfl
@[simp] theorem inPop_status : (inPop s).2.status = s.status := by unfold inPop; split <;> rfl

end InPop

section PlaceWord
variable (w : InstrWord) (s : State)

@[simp] theorem placeWord_regs : (placeWord w s).regs = s.regs := rfl
@[simp] theorem placeWord_pc : (placeWord w s).pc = s.pc := rfl
@[simp] theorem placeWord_mem : (placeWord w s).mem = s.mem := rfl
@[simp] theorem placeWord_inq : (placeWord w s).inq = s.inq := rfl
@[simp] theorem placeWord_icur : (placeWord w s).icur = s.icur := rfl
@[simp] theorem placeWord_outlog : (placeWord w s).outlog = s.outlog := rfl
@[simp] theorem placeWord_steps : (placeWord w s).steps = s.steps := rfl
@[simp] theorem placeWord_status : (placeWord w s).status = .running := rfl
@[simp] theorem placeWord_strictPadding : (placeWord w s).config.strictPadding = s.config.strictPadding := rfl
@[simp] theorem placeWord_r0Hardwired : (placeWord w s).config.r0Hardwired = s.config.r0Hardwired := rfl
@[simp] theorem placeWord_memSize : (placeWord w s).config.memSize = s.config.memSize := rfl

end PlaceWord

end Sys2Proof.Machine
end

