-- ==== Sys2Proof/Laws/Ops.lean ====
section
/-! SUPPORT. One lemma per shared operation that says everything it can do. -/

namespace Sys2Proof.Machine

/-! ## Registers -/

theorem isHardwired_iff (s : State) (i : RegIdx) : isHardwired s i = true ↔ s.config.r0Hardwired = true ∧ i = 0 := by
  simp [isHardwired]

/-- Every register after a write through the register-0 policy (10_state.md R18). -/
theorem X_writeReg (s : State) (i j : RegIdx) (v : Word) :
    (writeReg i v s).X j = if j = i ∧ isHardwired s i = false then v else s.X j := by
  unfold writeReg State.X
  by_cases h : isHardwired s i
  · simp [h]
  · by_cases hj : j = i
    · subst hj; simp [h]
    · have : ¬ i.toNat = j.toNat := fun e => hj (BitVec.eq_of_toNat_eq e.symm)
      simp [h, hj, this]

/-- A write changes no register but its own. -/
theorem eq_of_X_writeReg_ne {s : State} {d r : RegIdx} {v : Word} (h : (writeReg d v s).X r ≠ s.X r) : r = d := by
  rw [X_writeReg] at h
  by_contra hne
  exact h (by simp [hne])

/-- A write through the policy sets the register as R18 says. -/
theorem setsReg_of_X {s t : State} {d : RegIdx} {v : Word} (h : ∀ r, t.X r = (writeReg d v s).X r) :
    SetsReg s t d v where
  written hd := by
    have hf : isHardwired s d = false := by
      rw [← Bool.not_eq_true, isHardwired_iff]; exact hd
    rw [h, X_writeReg]; simp [hf]
  discarded hd := by
    have hf : isHardwired s d = true := (isHardwired_iff s d).mpr hd
    rw [h, X_writeReg]; simp [hf]
  others r hr := by rw [h, X_writeReg]; simp [hr]

/-! ## Memory access -/

/-- An in-range read gives the cell. -/
theorem memRead_inRange {s : State} {a : Nat} (h : a < s.config.memSize) : memRead s a = .ok (s.mem.read a) := by
  simp [memRead, Nat.not_le.mpr h]

/-- An out-of-range read raises the read fault (20_memory.md R26). -/
theorem memRead_outOfRange {s : State} {a : Nat} (h : s.config.memSize ≤ a) :
    memRead s a = .error (.memoryAddressOutOfRange .read a s.config.memSize s.pc) := by
  simp [memRead, h]

/-- An in-range write gives the state with the cell written. -/
theorem memWrite_inRange {s : State} {a : Nat} {v : Word} (h : a < s.config.memSize) :
    memWrite s a v = .ok { s with mem := s.mem.write a v } := by
  simp [memWrite, Nat.not_le.mpr h]

/-- An out-of-range write raises the write fault (20_memory.md R27). -/
theorem memWrite_outOfRange {s : State} {a : Nat} {v : Word} (h : s.config.memSize ≤ a) :
    memWrite s a v = .error (.memoryAddressOutOfRange .write a s.config.memSize s.pc) := by
  simp [memWrite, h]

/-! ## Input, output and value conversions -/

/-- InPop with a value left: it is popped modulo 2^32 and the cursor advances (10_state.md R22). -/
theorem inPop_of_lt {s : State} (h : s.icur < s.inq.length) :
    inPop s = (wrap32 s.inq[s.icur], { s with icur := s.icur + 1 }) := by
  simp [inPop, List.getElem?_eq_getElem h]

/-- InPop of an exhausted queue: the EOF sentinel 0, nothing changed (10_state.md R22). -/
theorem inPop_of_ge {s : State} (h : s.inq.length ≤ s.icur) : inPop s = (0, s) := by
  simp [inPop, List.getElem?_eq_none h]

/-- The popped value depends on the input sequence and the cursor alone. -/
theorem inPop_value (s : State) : (inPop s).1 = (s.inq[s.icur]?.map wrap32).getD 0 := by
  unfold inPop
  cases s.inq[s.icur]? <;> rfl

/-- The cursor after a pop. -/
theorem inPop_icur (s : State) : (inPop s).2.icur = if s.icur < s.inq.length then s.icur + 1 else s.icur := by
  split
  · next h => rw [inPop_of_lt h]
  · next h => rw [inPop_of_ge (Nat.le_of_not_lt h)]

/-- signed is the two's-complement reading (00_scope.md R11). -/
theorem signed_eq_toInt (w : Word) : signed w = w.toInt := by
  have h : w.getLsbD 31 = w.msb := by rw [BitVec.msb_eq_getLsbD_last]
  unfold signed
  rw [h, BitVec.toInt_eq_msb_cond]
  cases w.msb <;> simp

theorem signed_range (w : Word) : -(2 ^ 31) ≤ signed w ∧ signed w < 2 ^ 31 := by
  rw [signed_eq_toInt]
  have := w.toInt_lt
  have := w.le_toInt
  constructor <;> omega

/-! ## The start of a step -/

/-- What a step's start decides (40_engine.md R55). -/
theorem startCheck_cases (s : State) :
    (programLength s ≤ s.pc.toNat ∧ startCheck s = some .haltedNormal) ∨
    (s.pc.toNat < programLength s ∧ s.steps = s.config.stepLimit ∧ startCheck s = some .haltedStepLimit) ∨
    (s.pc.toNat < programLength s ∧ s.steps ≠ s.config.stepLimit ∧ startCheck s = none) := by
  unfold startCheck
  by_cases h : programLength s ≤ s.pc.toNat
  · exact .inl ⟨h, by simp [h]⟩
  · by_cases hs : s.steps = s.config.stepLimit
    · exact .inr (.inl ⟨by omega, hs, by simp [h, hs]⟩)
    · exact .inr (.inr ⟨by omega, hs, by simp [h, hs]⟩)

/-- A fetched word's index lies in the program. -/
theorem FetchesWord.pc_lt {s : State} {w : InstrWord} (h : FetchesWord s w) : s.pc.toNat < programLength s := by
  have h4 := h 4 (by decide)
  have : 5 * s.pc.toNat + 4 < s.prog.length := by
    by_contra hn
    rw [List.getElem?_eq_none (by omega)] at h4
    exact absurd h4 (by simp)
  unfold programLength wordBytes
  omega

/-- The bytes the machine fetches are those of the word (30_encoding.md R32, 40_engine.md R56). -/
theorem FetchesWord.fetchDecode_eq {s : State} {w : InstrWord} (h : FetchesWord s w) :
    fetchDecode s = decodeWord s.config.strictPadding w := by
  unfold fetchDecode decode
  congr 1
  apply wordOfBytes_eq
  intro k hk
  have hb : (progFetch s)[k] = s.prog.getD (5 * s.pc.toNat + k) 0 := by
    obtain rfl | rfl | rfl | rfl | rfl : k = 0 ∨ k = 1 ∨ k = 2 ∨ k = 3 ∨ k = 4 := by omega
    all_goals rfl
  rw [hb, List.getD_eq_getElem?_getD, h k hk, Option.getD_some]

/-- Below P all five bytes of the fetched word exist, so some word is fetched (40_engine.md R56). -/
theorem fetchesWord_of_pc_lt {s : State} (h : s.pc.toNat < programLength s) :
    FetchesWord s (wordOfBytes (progFetch s)) := by
  intro k hk
  unfold programLength wordBytes at h
  have hlen : 5 * s.pc.toNat + k < s.prog.length := by omega
  rw [← bytesOfWord_getElem _ k hk, bytesOfWord_wordOfBytes, List.getElem?_eq_getElem hlen]
  have hb : (progFetch s)[k] = s.prog.getD (5 * s.pc.toNat + k) 0 := by
    obtain rfl | rfl | rfl | rfl | rfl : k = 0 ∨ k = 1 ∨ k = 2 ∨ k = 3 ∨ k = 4 := by omega
    all_goals rfl
  rw [hb, List.getD_eq_getElem?_getD, List.getElem?_eq_getElem hlen, Option.getD_some]

end Sys2Proof.Machine
end

