-- ==== Sys2Proof/Laws/PerInstr.lean ====
section
/-! SUPPORT. Facts about every instruction as syntax, one lemma per constructor. -/

namespace Sys2Proof.Laws.WordValue

/-- The word of each instruction as a number: opcode, field B from bit 4, field C just above it, padding 0
(30_encoding.md R33, R38). -/
def Statement : Instr → Prop
  | .nop => Instr.nop.word.toNat = 0
  | .ldi imm c => (Instr.ldi imm c).word.toNat = 1 + imm.toNat * 2 ^ 4 + c.toNat * 2 ^ 30
  | .load b a => (Instr.load b a).word.toNat = 2 + b.toNat * 2 ^ 4 + a.toNat * 2 ^ 8
  | .store a c => (Instr.store a c).word.toNat = 3 + a.toNat * 2 ^ 4 + c.toNat * 2 ^ 35
  | .neq b a => (Instr.neq b a).word.toNat = 4 + b.toNat * 2 ^ 4 + a.toNat * 2 ^ 8
  | .add b c => (Instr.add b c).word.toNat = 5 + b.toNat * 2 ^ 4 + c.toNat * 2 ^ 8
  | .sub b c => (Instr.sub b c).word.toNat = 6 + b.toNat * 2 ^ 4 + c.toNat * 2 ^ 8
  | .jmp t => (Instr.jmp t).word.toNat = 7 + t.toNat * 2 ^ 4
  | .jz b t => (Instr.jz b t).word.toNat = 8 + b.toNat * 2 ^ 4 + t.toNat * 2 ^ 8
  | .input tag c => (Instr.input tag c).word.toNat = 9 + tag.toNat * 2 ^ 4 + c.toNat * 2 ^ 30
  | .output tag c => (Instr.output tag c).word.toNat = 10 + tag.toNat * 2 ^ 4 + c.toNat * 2 ^ 30

/-- Two fields packed above an opcode nibble. -/
theorem two_fields (code : BitVec 4) (v u off wv wu : Nat) (hv : v < 2 ^ wv) (hu : u < 2 ^ wu) (hoff : off = 4 + wv)
    (hfit : off + wu ≤ 40) :
    ((code.setWidth 40 ||| (BitVec.ofInt 40 (v : Int) <<< 4)) ||| (BitVec.ofInt 40 (u : Int) <<< off)).toNat =
      code.toNat + v * 2 ^ 4 + u * 2 ^ off := by
  have hc : (code.setWidth 40 : InstrWord).toNat = code.toNat := by
    rw [BitVec.toNat_setWidth]; omega
  have h1 := or_placed_toNat (code.setWidth 40) v 4 wv (by rw [hc]; exact code.isLt) hv (by omega)
  have hlt : code.toNat + v * 2 ^ 4 < 2 ^ off := by
    have hp : 2 ^ off = 2 ^ wv * 2 ^ 4 := by rw [hoff, Nat.pow_add, Nat.mul_comm]
    have := code.isLt
    have : (v + 1) * 2 ^ 4 ≤ 2 ^ wv * 2 ^ 4 := Nat.mul_le_mul_right _ hv
    omega
  rw [or_placed_toNat _ u off wu (by rw [h1, hc]; exact hlt) hu hfit, h1, hc]

theorem nop : Statement .nop := rfl
theorem ldi (imm : Imm) (c : RegIdx) : Statement (.ldi imm c) :=
  two_fields 1 _ _ 30 26 4 imm.isLt c.isLt rfl (by decide)
theorem load (b : RegIdx) (a : Addr) : Statement (.load b a) :=
  two_fields 2 _ _ 8 4 31 b.isLt a.isLt rfl (by decide)
theorem store (a : Addr) (c : RegIdx) : Statement (.store a c) :=
  two_fields 3 _ _ 35 31 4 a.isLt c.isLt rfl (by decide)
theorem neq (b : RegIdx) (a : Addr) : Statement (.neq b a) :=
  two_fields 4 _ _ 8 4 31 b.isLt a.isLt rfl (by decide)
theorem add (b c : RegIdx) : Statement (.add b c) :=
  two_fields 5 _ _ 8 4 4 b.isLt c.isLt rfl (by decide)
theorem sub (b c : RegIdx) : Statement (.sub b c) :=
  two_fields 6 _ _ 8 4 4 b.isLt c.isLt rfl (by decide)
theorem jmp (t : Target) : Statement (.jmp t) :=
  or_placed_toNat ((7 : BitVec 4).setWidth 40) _ 4 31 (by decide) t.isLt (by decide)
theorem jz (b : RegIdx) (t : Target) : Statement (.jz b t) :=
  two_fields 8 _ _ 8 4 31 b.isLt t.isLt rfl (by decide)
theorem input (tag : Imm) (c : RegIdx) : Statement (.input tag c) :=
  two_fields 9 _ _ 30 26 4 tag.isLt c.isLt rfl (by decide)
theorem output (tag : Imm) (c : RegIdx) : Statement (.output tag c) :=
  two_fields 10 _ _ 30 26 4 tag.isLt c.isLt rfl (by decide)

end Sys2Proof.Laws.WordValue
end

