-- ==== Sys2Proof/Laws/Step.lean ====
section
/-! SUPPORT. What one instruction and one step can do, said once; later proofs cite these instead of unfolding the
meanings or the step. -/

namespace Sys2Proof.Machine

/-! ## The three instructions with a bounds check, on either side of it -/

theorem execLoad_inRange {b : RegIdx} {a : Addr} {s : State} (h : cellAddress a < s.config.memSize) :
    execLoad b a s = commit (nextPc s) (writeReg b (s.mem.read (cellAddress a)) s) := by
  simp [execLoad, memRead_inRange h]

theorem execLoad_outOfRange {b : RegIdx} {a : Addr} {s : State} (h : s.config.memSize ≤ cellAddress a) :
    execLoad b a s = raise (.memoryAddressOutOfRange .read (cellAddress a) s.config.memSize s.pc) s := by
  simp [execLoad, memRead_outOfRange h]

theorem execStore_inRange {a : Addr} {c : RegIdx} {s : State} (h : cellAddress a < s.config.memSize) :
    execStore a c s = commit (nextPc s) { s with mem := s.mem.write (cellAddress a) (readReg s c) } := by
  simp [execStore, memWrite_inRange h]

theorem execStore_outOfRange {a : Addr} {c : RegIdx} {s : State} (h : s.config.memSize ≤ cellAddress a) :
    execStore a c s = raise (.memoryAddressOutOfRange .write (cellAddress a) s.config.memSize s.pc) s := by
  simp [execStore, memWrite_outOfRange h]

theorem execNeq_inRange {b : RegIdx} {a : Addr} {s : State} (h : cellAddress a < s.config.memSize) :
    execNeq b a s =
      commit (nextPc s) (writeReg b (notEqualWord (readReg s b) (s.mem.read (cellAddress a))) s) := by
  simp [execNeq, memRead_inRange h]

theorem execNeq_outOfRange {b : RegIdx} {a : Addr} {s : State} (h : s.config.memSize ≤ cellAddress a) :
    execNeq b a s = raise (.memoryAddressOutOfRange .read (cellAddress a) s.config.memSize s.pc) s := by
  simp [execNeq, memRead_outOfRange h]

/-! ## One instruction -/

/-- Everything an instruction can do: raise the memory fault of an out-of-range address, or complete in one of five
ways, each with its commit. -/
inductive Effect (s : State) : State → Prop where
  /-- LOAD, NEQ and STORE at an address of MEM_SIZE or more (R65 to R67). -/
  | outOfRange (acc : Access) (a : Nat) (h : s.config.memSize ≤ a) :
      Effect s { s with status := .haltedFault (.memoryAddressOutOfRange acc a s.config.memSize s.pc) }
  /-- LDI, LOAD, NEQ, ADD and SUB: one register. -/
  | register (d : RegIdx) (v : Word) : Effect s { writeReg d v s with pc := s.pc + 1, steps := s.steps + 1 }
  /-- STORE: one cell within the memory. -/
  | cell (a : Nat) (v : Word) (h : a < s.config.memSize) :
      Effect s { s with mem := s.mem.write a v, pc := s.pc + 1, steps := s.steps + 1 }
  /-- NOP and a JZ not taken: the default advance. -/
  | advance : Effect s { s with pc := s.pc + 1, steps := s.steps + 1 }
  /-- JMP and a taken JZ. -/
  | jump (t : Target) : Effect s { s with pc := targetPc t, steps := s.steps + 1 }
  /-- IN: the cursor and one register. -/
  | pop (d : RegIdx) :
      Effect s { writeReg d (inPop s).1 (inPop s).2 with pc := s.pc + 1, steps := s.steps + 1 }
  /-- OUT: the log. -/
  | log (v : Word) (tag : Imm) : Effect s { outAppend v tag s with pc := s.pc + 1, steps := s.steps + 1 }

/-- Every instruction answers a next state, by one of the effects above. -/
theorem exec_effect (i : Instr) (s : State) : ∃ t, exec i s = .next t ∧ Effect s t := by
  cases i with
  | nop => exact ⟨_, rfl, .advance⟩
  | ldi imm c => exact ⟨_, by simp [exec, execLdi, commit, nextPc], .register c (zext32 imm)⟩
  | load b a =>
    rcases Nat.lt_or_ge (cellAddress a) s.config.memSize with h | h
    · exact ⟨_, by simp [exec, execLoad_inRange h, commit, nextPc], .register b (s.mem.read (cellAddress a))⟩
    · exact ⟨_, execLoad_outOfRange h, .outOfRange .read _ h⟩
  | store a c =>
    rcases Nat.lt_or_ge (cellAddress a) s.config.memSize with h | h
    · exact ⟨_, by simp [exec, execStore_inRange h, commit, nextPc], .cell _ (readReg s c) h⟩
    · exact ⟨_, execStore_outOfRange h, .outOfRange .write _ h⟩
  | neq b a =>
    rcases Nat.lt_or_ge (cellAddress a) s.config.memSize with h | h
    · exact ⟨_, by simp [exec, execNeq_inRange h, commit, nextPc],
        .register b (notEqualWord (readReg s b) (s.mem.read (cellAddress a)))⟩
    · exact ⟨_, execNeq_outOfRange h, .outOfRange .read _ h⟩
  | add b c => exact ⟨_, by simp [exec, execAdd, commit, nextPc], .register b (readReg s b + readReg s c)⟩
  | sub b c => exact ⟨_, by simp [exec, execSub, commit, nextPc], .register b (readReg s b - readReg s c)⟩
  | jmp t => exact ⟨_, rfl, .jump t⟩
  | jz b t =>
    by_cases h : isZero (readReg s b)
    · exact ⟨_, by simp [exec, execJz, h, commit], .jump t⟩
    · exact ⟨_, by simp [exec, execJz, h, commit, nextPc], .advance⟩
  | input tag c => exact ⟨_, by simp [exec, execInput, commit, nextPc], .pop c⟩
  | output tag c => exact ⟨_, by simp [exec, execOutput, commit, nextPc], .log (readReg s c) tag⟩

/-- An instruction's next state comes from one of its effects. -/
theorem effect_of_exec {i : Instr} {s t : State} (h : exec i s = .next t) : Effect s t := by
  obtain ⟨u, hu, he⟩ := exec_effect i s
  rw [hu] at h
  cases h
  exact he

/-- Everything a step that answers a next state can have done (40_engine.md R55 to R60). -/
theorem step_cases {s t : State} (h : step s = .next t) :
    s.status = .running ∧
    ((programLength s ≤ s.pc.toNat ∧ t = { s with status := .haltedNormal }) ∨
     (s.pc.toNat < programLength s ∧ s.steps = s.config.stepLimit ∧ t = { s with status := .haltedStepLimit }) ∨
     (s.pc.toNat < programLength s ∧ s.steps ≠ s.config.stepLimit ∧
      ((∃ e, fetchDecode s = .error e ∧ t = { s with status := .haltedFault (decodeFault s.pc e) }) ∨
       ∃ i, fetchDecode s = .ok i ∧ exec i s = .next t))) := by
  unfold step at h
  have hr : s.status = .running := by
    cases hst : s.status <;> simp [hst, terminalOutcome] at h
    rfl
  refine ⟨hr, ?_⟩
  simp only [hr, terminalOutcome] at h
  rcases startCheck_cases s with ⟨h1, h2⟩ | ⟨h1, h2, h3⟩ | ⟨h1, h2, h3⟩
  · rw [h2] at h; cases h; exact .inl ⟨h1, rfl⟩
  · rw [h3] at h; cases h; exact .inr (.inl ⟨h1, h2, rfl⟩)
  · rw [h3] at h
    refine .inr (.inr ⟨h1, h2, ?_⟩)
    cases hd : fetchDecode s with
    | error e => rw [hd] at h; cases h; exact .inl ⟨e, rfl, rfl⟩
    | ok i => rw [hd] at h; exact .inr ⟨i, rfl, h⟩

/-- While running, within the program and the budget, a step is what the decoded word gives. -/
theorem step_eq {s : State} (hr : s.status = .running) (hpc : s.pc.toNat < programLength s)
    (hs : s.steps ≠ s.config.stepLimit) :
    step s = match fetchDecode s with
      | .error e => raise (decodeFault s.pc e) s
      | .ok i => exec i s := by
  have hc : startCheck s = none := by simp [startCheck, Nat.not_le.mpr hpc, hs]
  unfold step
  rw [hr, hc]
  rfl

end Sys2Proof.Machine
end

