-- ==== Sys2Proof/Tests/Slice0.lean ====
section
/-! SUPPORT. The model's own tests. Expected values come from 95_test_vectors.md (row ids such as L2-DM 3) or are
worked out by hand from the rule named. Then, for each obligation with hypotheses, a state and operands that meet them. -/

namespace Sys2Proof.Tests

open Sys2Proof Sys2Proof.Machine

/-! ## Helpers -/

/-- The next state of an outcome. -/
def nextOf {σ φ ρ : Type} : Host.Outcome σ φ ρ → Option σ
  | .next t => some t
  | .fault _ => none
  | .refused _ => none

/-- One field of an outcome's next state. -/
def fieldOf {α : Type} (f : State → α) (o : Host.Outcome State Fault Refusal) : Option α := (nextOf o).map f

/-- The result of a decoding or an encoding. -/
def okOf {ε α : Type} : Except ε α → Option α
  | .ok a => some a
  | .error _ => none

/-- The error of a decoding or an encoding. -/
def errorOf {ε α : Type} : Except ε α → Option ε
  | .ok _ => none
  | .error e => some e

/-- MEM_SIZE = 16, STEP_LIMIT = 100, the other parameters at their defaults. -/
def cfg16 : Config := { memSizeLog2 := 4, stepLimit := 100, r0Hardwired := false, strictPadding := true }

/-- The same with R0 hard-wired. -/
def cfg16Zero : Config := { cfg16 with r0Hardwired := true }

/-- A fresh state with registers 0 to 3, memory cells and an input sequence. -/
def start (cfg : Config) (r0 r1 r2 r3 : Word) (cells : List (Nat × Word)) (inq : List Int) : State :=
  { State.resetWith cfg [] inq with
    regs := #v[r0, r1, r2, r3, 0, 0, 0, 0, 0, 0, 0, 0, 0, 0, 0, 0], mem := ⟨cells⟩ }

/-- A fresh state over an image. -/
def loaded (cfg : Config) (image : List Byte) : State := State.resetWith cfg image []

/-! ## Well-formed records (R34 to R37, R40) -/

theorem test_wf_register_16 : (Record.ldi 0 16).wellFormed Config.default = false := by decide
theorem test_wf_register_negative : (Record.add (-1) 0).wellFormed Config.default = false := by decide
theorem test_wf_constant_too_large : (Record.ldi 67108864 1).wellFormed Config.default = false := by decide
theorem test_wf_constant_negative : (Record.input (-1) 0).wellFormed Config.default = false := by decide
theorem test_wf_address_at_MEM_SIZE : (Record.load 0 1048576).wellFormed Config.default = false := by decide
theorem test_wf_address_last_cell : (Record.load 0 1048575).wellFormed Config.default = true := by decide
theorem test_wf_address_negative : (Record.store (-1) 0).wellFormed Config.default = false := by decide
theorem test_wf_target_too_large : (Record.jmp 2147483648).wellFormed Config.default = false := by decide
theorem test_wf_target_negative : (Record.jz 0 (-1)).wellFormed Config.default = false := by decide
/-- A target is not bounded by MEM_SIZE (L2-ENC 11). -/
theorem test_wf_target_beyond_memory : (Record.jz 0 1048576).wellFormed Config.default = true := by decide
/-- A decoded address is not checked, so a decoded instruction can have no well-formed record (R47). -/
theorem test_wf_decoded_address : (Instr.load 0 1048576).wellFormed Config.default = false := by decide

/-! ## Decoding: words from 95_test_vectors.md, one for every constructor -/

theorem test_decode_nop : okOf (decode true #v[0, 0, 0, 0, 0]) = some .nop := by decide
theorem test_decode_ldi : okOf (decode true #v[0xA1, 0x00, 0x00, 0x40, 0x00]) = some (.ldi 10 1) := by decide
theorem test_decode_load : okOf (decode true #v[0x42, 0x05, 0x00, 0x00, 0x00]) = some (.load 4 5) := by decide
theorem test_decode_store : okOf (decode true #v[0x53, 0x00, 0x00, 0x00, 0x18]) = some (.store 5 3) := by decide
/-- L2-AC 1: NEQ R3, 4 is 0x0000000434. -/
theorem test_decode_neq : okOf (decode true #v[0x34, 0x04, 0x00, 0x00, 0x00]) = some (.neq 3 4) := by decide
theorem test_decode_add : okOf (decode true #v[0x15, 0x02, 0x00, 0x00, 0x00]) = some (.add 1 2) := by decide
/-- L3-3 row 5: SUB R1, R4 is 0x0000000416. -/
theorem test_decode_sub : okOf (decode true #v[0x16, 0x04, 0x00, 0x00, 0x00]) = some (.sub 1 4) := by decide
theorem test_decode_jmp : okOf (decode true #v[0xF7, 0xFF, 0xFF, 0xFF, 0x07]) = some (.jmp 2147483647) := by decide
theorem test_decode_jz : okOf (decode true #v[0x18, 0x03, 0x00, 0x00, 0x00]) = some (.jz 1 3) := by decide
/-- L2-IO 2: IN R5, 1 is 0x0140000019. -/
theorem test_decode_in : okOf (decode true #v[0x19, 0x00, 0x00, 0x40, 0x01]) = some (.input 1 5) := by decide
/-- L3-3 row 8. -/
theorem test_decode_out : okOf (decode true #v[0xAA, 0x02, 0x00, 0xC0, 0x00]) = some (.output 42 3) := by decide

/-- STORE bit by bit: opcode 0011, the 31-bit address 1 (its lowest bit at 4), register 8 (its highest bit at 38). -/
theorem test_decode_store_bits :
    okOf (decodeWord true 0b0100000000000000000000000000000000010011#40) = some (.store 1 8) := by decide
/-- LDI bit by bit: opcode 0001, the 26-bit constant with its top bit (29) set alone, register 1 (bit 30). -/
theorem test_decode_ldi_bits :
    okOf (decodeWord true 0b0000000001100000000000000000000000000001#40) = some (.ldi 33554432 1) := by decide
/-- L2-DEC 3: the opcode is checked before the padding. -/
theorem test_decode_opcode_first :
    errorOf (decode true #v[0x0F, 0xFF, 0xFF, 0xFF, 0xFF]) = some (.unknownOpcode 15) := by decide
theorem test_decode_opcode_11 :
    errorOf (decode false #v[0x0B, 0x00, 0x00, 0x00, 0x00]) = some (.unknownOpcode 11) := by decide
/-- L2-DEC 5, 9 and 10: the padding bit just above the last field. -/
theorem test_decode_padding_load :
    errorOf (decode true #v[0x12, 0x00, 0x00, 0x00, 0x80]) = some (.nonZeroPadding 2 0x8000000000) := by decide
theorem test_decode_padding_jmp :
    errorOf (decode true #v[0xF7, 0xFF, 0xFF, 0xFF, 0x0F]) = some (.nonZeroPadding 7 0x0800000000) := by decide
theorem test_decode_padding_ldi :
    errorOf (decode true #v[0xF1, 0xFF, 0xFF, 0xFF, 0x07]) = some (.nonZeroPadding 1 0x0400000000) := by decide
/-- L2-DEC 5 and 10 with STRICT_PADDING = false: the padding is ignored. -/
theorem test_decode_lenient_load : okOf (decode false #v[0x12, 0x00, 0x00, 0x00, 0x80]) = some (.load 1 0) := by
  decide
theorem test_decode_lenient_ldi :
    okOf (decode false #v[0xF1, 0xFF, 0xFF, 0xFF, 0x07]) = some (.ldi 67108863 15) := by decide
/-- L2-DEC 8: the big-endian image of LDI(10, 1) does not decode as LDI. -/
theorem test_decode_not_big_endian :
    errorOf (decode true #v[0x00, 0x40, 0x00, 0x00, 0xA1]) = some (.nonZeroPadding 0 0xA100004000) := by decide
/-- The host's table words: 40 bits, bit 0 the least significant (L1-A row 0). -/
theorem test_decodeTableWord : decodeTableWord 40 0x00400000A1 = some (.ldi 10 1) := by decide

/-! ## Encoding: rows of L2-ENC -/

theorem test_encode_ldi : okOf (encode Config.default (.ldi 67108863 15)) = some 0x03FFFFFFF1 := by decide
theorem test_encode_jz : okOf (encode Config.default (.jz 15 2147483647)) = some 0x7FFFFFFFF8 := by decide
theorem test_encode_add : okOf (encode Config.default (.add 15 15)) = some 0x0000000FF5 := by decide
theorem test_encode_bytes : bytesOfWord 0x03FFFFFFF1 = #v[0xF1, 0xFF, 0xFF, 0xFF, 0x03] := by decide
theorem test_encode_B_first :
    errorOf (encode Config.default (.ldi 67108864 16)) = some ⟨.B, .ldi, 67108864, 67108863⟩ := by decide
theorem test_encode_negative :
    errorOf (encode Config.default (.ldi (-1) 0)) = some ⟨.B, .ldi, -1, 67108863⟩ := by decide
theorem test_encode_address_MEM_SIZE :
    errorOf (encode cfg16 (.load 5 16)) = some ⟨.C, .load, 16, 15⟩ := by decide
/-- L2-ENC 18: at MEM_SIZE = 2^31 the field width governs. -/
theorem test_encode_address_width :
    errorOf (encode { cfg16 with memSizeLog2 := 31 } (.load 0 2147483648)) =
      some ⟨.C, .load, 2147483648, 2147483647⟩ := by decide

/-! ## Data movement (L2-DM) -/

theorem test_nop : fieldOf id (exec .nop (start cfg16 0 3 0 0 [(2, 9)] [7])) =
    some { start cfg16 0 3 0 0 [(2, 9)] [7] with pc := 1, steps := 1 } := by decide
theorem test_ldi_r0 : fieldOf (·.X 0) (exec (.ldi 5 0) (start cfg16 0 0 0 0 [] [])) = some 5 := by decide
theorem test_ldi_r0_hardwired :
    fieldOf (fun t => (t.X 0, t.pc, t.steps)) (exec (.ldi 5 0) (start cfg16Zero 0 0 0 0 [] [])) =
      some (0, 1, 1) := by decide
theorem test_load_last_cell :
    fieldOf (fun t => (t.X 1, t.pc)) (exec (.load 1 15) (start cfg16 0 0 0 0 [(15, 0xFFFFFFFB)] [])) =
      some (0xFFFFFFFB, 1) := by decide
theorem test_load_out_of_range : fieldOf id (exec (.load 1 16) (start cfg16 0 0 0 0 [] [])) =
    some { start cfg16 0 0 0 0 [] [] with
      status := .haltedFault (.memoryAddressOutOfRange .read 16 16 0) } := by decide
theorem test_store_last_cell :
    fieldOf (fun t => (t.mem.read 15, t.pc)) (exec (.store 15 1) (start cfg16 0 3 0 0 [(2, 9)] [])) =
      some (3, 1) := by decide
theorem test_store_out_of_range : fieldOf id (exec (.store 16 1) (start cfg16 0 3 0 0 [(2, 9)] [])) =
    some { start cfg16 0 3 0 0 [(2, 9)] [] with
      status := .haltedFault (.memoryAddressOutOfRange .write 16 16 0) } := by decide

/-! ## Compare and arithmetic (L2-AC) -/

theorem test_neq_equal :
    fieldOf (·.X 3) (exec (.neq 3 4) (start cfg16 0 0 0 0xFFFFFFFF [(4, 0xFFFFFFFF)] [])) = some 0 := by decide
theorem test_neq_different :
    fieldOf (·.X 3) (exec (.neq 3 4) (start cfg16 0 0 0 7 [(4, 0xFFFFFFFF)] [])) = some 1 := by decide
theorem test_add_wraps :
    fieldOf (fun t => (t.X 1, t.X 2)) (exec (.add 1 2) (start cfg16 0 0xFFFFFFFF 1 0 [] [])) = some (0, 1) := by decide
theorem test_add_same_register :
    fieldOf (·.X 1) (exec (.add 1 1) (start cfg16 0 0x40000000 0 0 [] [])) = some 0x80000000 := by decide
theorem test_sub_wraps :
    fieldOf (fun t => (t.X 1, t.X 2)) (exec (.sub 1 2) (start cfg16 0 0 1 0 [] [])) =
      some (0xFFFFFFFF, 1) := by decide
theorem test_sub_sign_change :
    fieldOf (·.X 1) (exec (.sub 1 2) (start cfg16 0 0x80000000 1 0 [] [])) = some 0x7FFFFFFF := by decide

/-! ## Control transfer (L2-CT) -/

theorem test_jmp : fieldOf (fun t => (t.pc, t.steps)) (exec (.jmp 1000) (start cfg16 0 0 0 0 [] [])) =
    some (1000, 1) := by decide
/-- R73: the largest target is 2^31 - 1, no sign extension. -/
theorem test_jmp_largest : fieldOf (·.pc) (exec (.jmp 2147483647) (start cfg16 0 0 0 0 [] [])) =
    some 2147483647 := by decide
theorem test_jz_not_taken : fieldOf (·.pc) (exec (.jz 1 5) (start cfg16 0 0x80000000 0 0 [] [])) = some 1 := by decide
/-- A hard-wired R0 reads 0 whatever the file holds (R17). -/
theorem test_jz_hardwired : fieldOf (·.pc) (exec (.jz 0 2) (start cfg16Zero 4 0 0 0 [] [])) = some 2 := by decide

/-! ## Input and output (L2-IO) -/

theorem test_in_wraps : fieldOf (fun t => (t.X 2, t.icur)) (exec (.input 0 2)
    { start cfg16 0 0 0 0 [] [-1, 4294967301] with icur := 1 }) = some (5, 2) := by decide
theorem test_in_end_of_input : fieldOf (fun t => (t.X 1, t.icur, t.status)) (exec (.input 1 1)
    { start cfg16 0 7 0 0 [] [7] with icur := 1 }) = some (0, 1, .running) := by decide
theorem test_out_signed : fieldOf (·.outlog) (exec (.output 67108863 1)
    { start cfg16 0 0xFFFFFFFF 0 0 [] [] with outlog := [⟨4, 2⟩] }) =
      some [⟨4, 2⟩, ⟨-1, 67108863⟩] := by decide
theorem test_out_smallest : fieldOf (·.outlog) (exec (.output 0 1) (start cfg16 0 0x80000000 0 0 [] [])) =
    some [⟨-2147483648, 0⟩] := by decide

/-! ## The step (L2-EN) -/

/-- L2-EN 1: the empty program ends at once, even with no budget. -/
theorem test_step_empty : fieldOf (·.status) (step (loaded { cfg16 with stepLimit := 0 } [])) =
    some .haltedNormal := by decide
/-- L2-EN 3: the range check comes before the limit check. -/
theorem test_step_range_before_limit : fieldOf (·.status) (step
    { loaded { cfg16 with stepLimit := 2 } (List.replicate 10 0) with pc := 2, steps := 2 }) =
      some .haltedNormal := by decide
/-- L2-EN 4. -/
theorem test_step_limit : fieldOf (fun t => (t.status, t.pc, t.steps)) (step
    { loaded { cfg16 with stepLimit := 1 } (List.replicate 10 0) with pc := 1, steps := 1 }) =
      some (.haltedStepLimit, 1, 1) := by decide
/-- L2-EN 6: the second word has opcode nibble 12. -/
theorem test_step_unknown_opcode : fieldOf (fun t => (t.status, t.pc, t.steps)) (step
    { loaded cfg16 [0x11, 0, 0, 0x40, 0, 0x0C, 0, 0, 0, 0] with pc := 1, steps := 1 }) =
      some (.haltedFault (.unknownOpcode 12 1), 1, 1) := by decide
/-- L2-EN 7 and 8: the second word is a NOP with a padding bit. -/
theorem test_step_padding : fieldOf (·.status) (step
    { loaded cfg16 [0x11, 0, 0, 0x40, 0, 0x10, 0, 0, 0, 0] with pc := 1, steps := 1 }) =
      some (.haltedFault (.nonZeroPadding 0 0x10 1)) := by decide
theorem test_step_padding_ignored : fieldOf (fun t => (t.status, t.pc, t.steps)) (step
    { loaded { cfg16 with strictPadding := false } [0x11, 0, 0, 0x40, 0, 0x10, 0, 0, 0, 0] with
      pc := 1, steps := 1 }) = some (.running, 2, 2) := by decide
/-- The second word is what runs at pc = 1 (L1-C row 0 after a NOP). -/
theorem test_step_fetches_at_pc : fieldOf (·.mem) (step
    { start cfg16 0 0 0 42 [] [] with prog := [0, 0, 0, 0, 0, 0x53, 0, 0, 0, 0x18], pc := 1 }) =
      some ⟨[(5, 42)]⟩ := by decide
/-- The host's question: a word placed after reset runs first. -/
theorem test_step_placed_word : fieldOf (·.X 1) (step (State.reset.withFetchWord 40 0x00400000A1)) =
    some 10 := by decide
/-- A halted state has no next state (R61). -/
theorem test_step_terminal : nextOf (step { loaded cfg16 [0, 0, 0, 0, 0] with status := .haltedNormal }) = none := by
  decide

/-! ## Launch and dump (R54, R88, R91) -/

theorem test_launch_length : launch cfg16 (List.replicate 7 0) [] Presets.none =
    .fault (.malformedProgramLength 7) := rfl
/-- L3-5: a preset of a hard-wired R0 is discarded. -/
theorem test_launch_preset_r0 :
    (nextOf (launch cfg16Zero [] [9] { Presets.none with regs := Presets.none.regs.set 0 (some 77) })).map (·.X 0) =
      some 0 := by decide
theorem test_launch_preset_r0_free :
    (nextOf (launch cfg16 [] [9] { Presets.none with regs := Presets.none.regs.set 0 (some 77) })).map (·.X 0) =
      some 77 := by decide
/-- L3-2: mem[0] = 11, mem[1] = 22. -/
theorem test_launch_preset_memory :
    (nextOf (launch cfg16 [] [] { Presets.none with mem := [(1, 22), (0, 11)] })).map (·.mem) =
      some ⟨[(0, 11), (1, 22)]⟩ := by decide
theorem test_launch_preset_out_of_range : launch cfg16 [] [] { Presets.none with mem := [(16, 1)] } =
    .refused (.presetOutOfRange 16) := rfl
/-- R91: clipped to MEM_SIZE = 16, the last cell as a signed value. -/
theorem test_dump_clipped : dump (start cfg16 0 0 0 0 [(15, 0xFFFFFFFF)] []) 14 20 = [(14, 0), (15, -1)] := by decide

/-! ## Memory in canonical form -/

theorem test_memory_write_zero_unlists : Memory.write ⟨[(2, 9), (4, 1)]⟩ 2 0 = ⟨[(4, 1)]⟩ := by decide
theorem test_memory_write_sorts : Memory.write ⟨[(2, 9), (6, 1)]⟩ 4 3 = ⟨[(2, 9), (4, 3), (6, 1)]⟩ := by decide

/-! ## Witnesses: the hypotheses of each obligation are met, at the boundary where there is one -/

theorem witness_LaunchCreatesResetState :
    ([] : List Byte).length % 5 = 0 ∧ ([] : List Byte).length / 5 ≤ 2 ^ 31 := by decide
/-- The largest accepted program. -/
theorem witness_LaunchCreatesResetState_largest :
    (List.replicate (5 * 2 ^ 31) (0 : Byte)).length % 5 = 0 ∧
    (List.replicate (5 * 2 ^ 31) (0 : Byte)).length / 5 ≤ 2 ^ 31 := by
  rw [List.length_replicate]; decide

theorem witness_LaunchStopsOnIllegalInput_length : (List.replicate 7 (0 : Byte)).length % 5 ≠ 0 := by decide
/-- The smallest program that is too large. -/
theorem witness_LaunchStopsOnIllegalInput_too_large :
    (List.replicate (5 * (2 ^ 31 + 1)) (0 : Byte)).length % 5 = 0 ∧
    2 ^ 31 < (List.replicate (5 * (2 ^ 31 + 1)) (0 : Byte)).length / 5 := by
  rw [List.length_replicate]; decide
theorem witness_LaunchStopsOnIllegalInput_preset :
    ([] : List Byte).length % 5 = 0 ∧ ([] : List Byte).length / 5 ≤ 2 ^ 31 ∧
    ∃ c ∈ [((15 : Nat), (1 : Word)), (16, 1)], cfg16.memSize ≤ c.1 := by decide

/-- Presets in range up to the last cell, one cell preset twice. -/
def somePresets : Presets :=
  { regs := Presets.none.regs.set 0 (some 77), mem := [(15, 1), (15, 2), (0, 3)] }

theorem witness_LaunchAppliesPresets :
    ([] : List Byte).length % 5 = 0 ∧ ([] : List Byte).length / 5 ≤ 2 ^ 31 ∧
    ∀ c ∈ somePresets.mem, c.1 < cfg16Zero.memSize := by decide
theorem witness_LaunchAppliesPresets_written :
    somePresets.mem = [(15, 1)] ++ ((15 : Nat), (2 : Word)) :: [(0, 3)] ∧
    ∀ c ∈ [((0 : Nat), (3 : Word))], c.1 ≠ 15 := by decide
theorem witness_LaunchAppliesPresets_unwritten : ∀ c ∈ somePresets.mem, c.1 ≠ 1 := by decide

theorem witness_NopOnlyAdvancesPc : (0x10 : InstrWord).toNat % 16 = 0 ∧ (0x10 : InstrWord) ≠ 0 := by decide
theorem witness_LdiLoadsConstant : (0 : Int) ≤ 67108863 ∧ (67108863 : Int) ≤ 67108863 := by decide

theorem witness_LoadReadsCellOrFaults_inRange :
    (15 : Addr).toNat < (start cfg16 0 0 0 0 [] []).config.memSize := by decide
theorem witness_LoadReadsCellOrFaults_outOfRange :
    (start cfg16 0 0 0 0 [] []).config.memSize ≤ (16 : Addr).toNat := by decide
theorem witness_LoadReadsCellOrFaults_encode : (cfg16.memSize : Int) ≤ 16 := by decide
theorem witness_StoreWritesCellOrFaults_inRange :
    (15 : Addr).toNat < (start cfg16 0 3 0 0 [(2, 9)] []).config.memSize := by decide
theorem witness_StoreWritesCellOrFaults_outOfRange :
    (start cfg16 0 3 0 0 [(2, 9)] []).config.memSize ≤ (16 : Addr).toNat := by decide
theorem witness_NeqComparesWithCellOrFaults_inRange :
    (15 : Addr).toNat < (start cfg16Zero 0 0 0 0 [(15, 1)] []).config.memSize := by decide
theorem witness_NeqComparesWithCellOrFaults_outOfRange :
    (start cfg16Zero 0 0 0 0 [(15, 1)] []).config.memSize ≤ (16 : Addr).toNat := by decide
theorem witness_InputPopsIntoRegister_value :
    (start cfg16 0 0 0 0 [] [7]).inq[(start cfg16 0 0 0 0 [] [7]).icur]? = some 7 := by decide
theorem witness_InputPopsIntoRegister_end :
    ({ start cfg16 0 0 0 0 [] [7] with icur := 1 }).inq.length ≤
      ({ start cfg16 0 0 0 0 [] [7] with icur := 1 }).icur := by decide

theorem witness_RegisterZeroPolicy : ∃ s, Reachable s ∧ s.config.r0Hardwired = true :=
  ⟨_, .launched (cfg := cfg16Zero) (image := []) (inq := []) (p := somePresets) rfl, rfl⟩

theorem witness_EachComponentHasItsWriters_memory :
    ∃ t, exec (.store 15 1) (start cfg16 0 3 0 0 [] []) = .next t ∧
      ∃ a, t.mem.read a ≠ (start cfg16 0 3 0 0 [] []).mem.read a :=
  ⟨_, rfl, 15, by decide⟩
theorem witness_EachComponentHasItsWriters_cursor :
    ∃ t, exec (.input 0 1) (start cfg16 0 0 0 0 [] [7]) = .next t ∧ t.icur ≠ (start cfg16 0 0 0 0 [] [7]).icur :=
  ⟨_, rfl, by decide⟩
theorem witness_EachComponentHasItsWriters_log :
    ∃ t, exec (.output 0 1) (start cfg16 0 0 0 0 [] []) = .next t ∧ t.outlog ≠ (start cfg16 0 0 0 0 [] []).outlog :=
  ⟨_, rfl, by decide⟩
theorem witness_EachComponentHasItsWriters_register :
    ∃ t, exec (.ldi 5 15) (start cfg16 0 0 0 0 [] []) = .next t ∧ t.X 15 ≠ (start cfg16 0 0 0 0 [] []).X 15 :=
  ⟨_, rfl, by decide⟩
theorem witness_EachComponentHasItsWriters_pc_fault :
    ∃ t, exec (.load 1 16) (start cfg16 0 0 0 0 [] []) = .next t ∧ t.pc ≠ (start cfg16 0 0 0 0 [] []).pc + 1 :=
  ⟨_, rfl, by decide⟩
theorem witness_EachComponentHasItsWriters_pc_jump :
    ∃ t, exec (.jmp 5) (start cfg16 0 0 0 0 [] []) = .next t ∧ t.pc ≠ (start cfg16 0 0 0 0 [] []).pc + 1 :=
  ⟨_, rfl, by decide⟩

/-- A store to the last cell, then a store to another cell and an ADD. -/
theorem witness_ReadsSeeMostRecentStore :
    ∃ t u, (15 : Addr).toNat < (start cfg16 0 3 4 0 [] []).config.memSize ∧
      exec (.store 15 1) (start cfg16 0 3 4 0 [] []) = .next t ∧ ExecTrace t [.store 14 2, .add 1 2] u ∧
      ∀ a' c', Instr.store a' c' ∈ [Instr.store 14 2, .add 1 2] → a' ≠ 15 := by
  refine ⟨_, _, by decide, rfl, .more rfl (.more rfl (.done _)), fun a' c' h => ?_⟩
  simp only [List.mem_cons, Instr.store.injEq, List.not_mem_nil, or_false, reduceCtorEq] at h
  rw [h.1]; decide

theorem witness_StepChecksTermination_range :
    ({ loaded cfg16 [0, 0, 0, 0, 0] with pc := 1 }).status = .running ∧
    ({ loaded cfg16 [0, 0, 0, 0, 0] with pc := 1 }).prog.length / 5 ≤
      ({ loaded cfg16 [0, 0, 0, 0, 0] with pc := 1 }).pc.toNat := by decide
theorem witness_StepChecksTermination_limit :
    ({ loaded cfg16 [0, 0, 0, 0, 0] with steps := 100 }).status = .running ∧
    ({ loaded cfg16 [0, 0, 0, 0, 0] with steps := 100 }).pc.toNat <
      ({ loaded cfg16 [0, 0, 0, 0, 0] with steps := 100 }).prog.length / 5 ∧
    ({ loaded cfg16 [0, 0, 0, 0, 0] with steps := 100 }).steps =
      ({ loaded cfg16 [0, 0, 0, 0, 0] with steps := 100 }).config.stepLimit := by decide

theorem canStep_of (s : State) (h : s.status = .running) (h' : s.steps ≠ s.config.stepLimit) : CanStep s := ⟨h, h'⟩

/-- LDI(10, 1) at index 1, one step before the budget is spent. -/
theorem witness_StepRunsDecodedInstruction :
    ∃ s, s = { loaded cfg16 [0, 0, 0, 0, 0, 0xA1, 0, 0, 0x40, 0] with pc := 1, steps := 99 } ∧ CanStep s ∧
      FetchesWord s 0x00400000A1 ∧ decodeWord s.config.strictPadding 0x00400000A1 = .ok (.ldi 10 1) :=
  ⟨_, rfl, canStep_of _ rfl (by decide), by unfold FetchesWord; decide, rfl⟩
theorem witness_StepRaisesUnknownOpcode_11 :
    ∃ s, s = loaded cfg16 [0x0B, 0, 0, 0, 0] ∧ CanStep s ∧ FetchesWord s 0x0B ∧ 10 < (0x0B : InstrWord).toNat % 16 :=
  ⟨_, rfl, canStep_of _ rfl (by decide), by unfold FetchesWord; decide, by decide⟩
theorem witness_StepRaisesUnknownOpcode_15 :
    ∃ s, s = loaded cfg16 [0x0F, 0xFF, 0xFF, 0xFF, 0xFF] ∧ CanStep s ∧ FetchesWord s 0xFFFFFFFF0F ∧
      10 < (0xFFFFFFFF0F : InstrWord).toNat % 16 :=
  ⟨_, rfl, canStep_of _ rfl (by decide), by unfold FetchesWord; decide, by decide⟩
/-- OUT, the highest known opcode, with its lowest padding bit set. -/
theorem witness_StepRaisesNonZeroPadding :
    ∃ s, s = loaded cfg16 [0x0A, 0, 0, 0, 0x04] ∧ CanStep s ∧ FetchesWord s 0x040000000A ∧
      s.config.strictPadding = true ∧ (0x040000000A : InstrWord).toNat % 16 ≤ 10 ∧
      (0x040000000A : InstrWord) &&& paddingBits ((0x040000000A : InstrWord).toNat % 16) ≠ 0 :=
  ⟨_, rfl, canStep_of _ rfl (by decide), by unfold FetchesWord; decide, rfl, by decide, by decide⟩
theorem witness_FaultsArePrecise :
    ∃ s t f, s = loaded cfg16 [0x12, 0x10, 0, 0, 0] ∧ step s = .next t ∧ t.status = .haltedFault f :=
  ⟨_, _, _, rfl, rfl, rfl⟩
theorem witness_StepCountsCompletedInstructions_goes_on :
    ∃ s t, s = loaded cfg16 [0, 0, 0, 0, 0] ∧ step s = .next t ∧ t.status = .running := ⟨_, _, rfl, rfl, rfl⟩
theorem witness_StepCountsCompletedInstructions_ends :
    ∃ s t, s = loaded cfg16 [] ∧ step s = .next t ∧ t.status ≠ .running := ⟨_, _, rfl, rfl, by decide⟩
theorem witness_StepKeepsLaunchInputs : ∃ s t, s = start cfg16 0 0 0 0 [] [7] ∧ step s = .next t := ⟨_, _, rfl, rfl⟩
theorem witness_StepOnlyAppendsToLog :
    ∃ s t, s = loaded cfg16 [0x0A, 0, 0, 0, 0] ∧ step s = .next t ∧ t.outlog ≠ s.outlog :=
  ⟨_, _, rfl, rfl, by decide⟩
/-- JMP 1 in a program of one word. -/
theorem witness_JumpPastEndHaltsNormally_jmp :
    ∃ s, s = loaded cfg16 [0x17, 0, 0, 0, 0] ∧ CanStep s ∧ FetchesWord s 0x17 ∧
      decodeWord s.config.strictPadding 0x17 = .ok (.jmp 1) ∧
      (Instr.jmp 1 = .jmp 1 ∨ ∃ b, Instr.jmp 1 = .jz b 1 ∧ readReg s b = 0) ∧
      s.prog.length / 5 ≤ (1 : Target).toNat :=
  ⟨_, rfl, canStep_of _ rfl (by decide), by unfold FetchesWord; decide, rfl, .inl rfl, by decide⟩
/-- JZ R1, 1 in a program of one word, taken. -/
theorem witness_JumpPastEndHaltsNormally_jz :
    ∃ s, s = loaded cfg16 [0x18, 0x01, 0, 0, 0] ∧ CanStep s ∧ FetchesWord s 0x118 ∧
      decodeWord s.config.strictPadding 0x118 = .ok (.jz 1 1) ∧
      (Instr.jz 1 1 = .jmp 1 ∨ ∃ b, Instr.jz 1 1 = .jz b 1 ∧ readReg s b = 0) ∧
      s.prog.length / 5 ≤ (1 : Target).toNat :=
  ⟨_, rfl, canStep_of _ rfl (by decide), by unfold FetchesWord; decide, rfl, .inr ⟨1, rfl, rfl⟩, by decide⟩
theorem witness_PlacedTableWordRunsNext :
    decodeWord State.reset.config.strictPadding (tableWord 40 0x00400000A1) = .ok (.ldi 10 1) := rfl
/-- The bytes on either side of the word at index 1 of three. -/
theorem witness_PlacedTableWordRunsNext_kept_bytes :
    ∃ s, s = { loaded cfg16 (List.replicate 15 7) with pc := 1 } ∧
      (4 < s.prog.length ∧ 4 < 5 * s.pc.toNat) ∧ (10 < s.prog.length ∧ 5 * s.pc.toNat + 5 ≤ 10) :=
  ⟨_, rfl, by decide, by decide⟩

theorem witness_LaunchEstablishesInvariant :
    ∃ s, launch cfg16Zero [0, 0, 0, 0, 0] [8, 9] somePresets = .next s := ⟨_, rfl⟩
/-- A state in the middle of a run that meets the invariant and steps on. -/
theorem witness_StepKeepsInvariant :
    ∃ s t, s = { start cfg16Zero 0 3 0 0 [(15, 2)] [7] with
        prog := [0xF3, 0, 0, 0, 0x08], icur := 1, outlog := [⟨-1, 0⟩], steps := 99 } ∧
      StateInv s ∧ step s = .next t := by
  refine ⟨_, _, rfl, ⟨by decide, by decide, by decide, by decide, by decide, by decide, by decide, by decide,
    by decide, by decide, fun f h => nomatch h⟩, rfl⟩

theorem witness_RunEndsWithinStepLimit_terminal :
    ({ loaded cfg16 [] with status := .haltedNormal }).status.terminal = true := rfl
theorem witness_RunEndsWithinStepLimit_budget_spent :
    ({ loaded cfg16 [] with steps := 100 }).steps ≤ ({ loaded cfg16 [] with steps := 100 }).config.stepLimit := by
  decide

/-- JMP 1 at index 1. -/
theorem witness_SelfJumpRunsToTheStepLimit :
    ∃ s, s = { loaded cfg16 [0, 0, 0, 0, 0, 0x17, 0, 0, 0, 0] with pc := 1, steps := 1 } ∧ s.status = .running ∧
      s.pc = BitVec.ofNat 32 (1 : Target).toNat ∧ FetchesWord s (Instr.jmp 1).word ∧ s.steps ≤ s.config.stepLimit :=
  ⟨_, rfl, rfl, by decide, by unfold FetchesWord; decide, by decide⟩
theorem witness_OutputAppendsSignedValue : ∃ s, launch cfg16 [0x0A, 0, 0, 0, 0] [] Presets.none = .next s := ⟨_, rfl⟩

theorem witness_RunReportNamesItsOutcome_length : [(0 : Byte)].length % 5 ≠ 0 := by decide
theorem witness_RunReportNamesItsOutcome_not_loaded :
    ∃ r, runImage cfg16 [0] [] Presets.none = .notLoaded r := ⟨_, rfl⟩
theorem witness_RunReportNamesItsOutcome_load_error :
    ∃ n, launch cfg16 [0] [] Presets.none = .fault (.malformedProgramLength n) := ⟨_, rfl⟩
theorem witness_RunReportNamesItsOutcome_refused :
    ∃ r, launch cfg16 [] [] { Presets.none with mem := [(16, 1)] } = .refused r := ⟨_, rfl⟩
theorem witness_RunReportNamesItsOutcome_launched :
    ∃ s, launch cfg16 [0x0A, 0, 0, 0, 0] [] Presets.none = .next s := ⟨_, rfl⟩

theorem witness_EncodeNamesFirstFieldOutOfRange_negative : ∃ v ∈ (Record.ldi 0 (-1)).operands, v < 0 := by decide
theorem witness_EncodeNamesFirstFieldOutOfRange_B :
    ∃ e, encode Config.default (.ldi 67108864 16) = .error e ∧ e.field = .B := ⟨_, rfl, rfl⟩
theorem witness_EncodeNamesFirstFieldOutOfRange_C :
    ∃ e, encode cfg16 (.load 15 16) = .error e ∧ e.field = .C := ⟨_, rfl, rfl⟩
theorem witness_DecodeInvertsEncode : (Record.load 15 15).wellFormed cfg16 = true := by decide
theorem witness_EncodeInvertsDecode_strict :
    decodeWord true 0x0000000FF2 = .ok (.load 15 15) ∧ (Instr.load 15 15).wellFormed cfg16 = true := ⟨rfl, by decide⟩
theorem witness_EncodeInvertsDecode_lenient :
    decodeWord false 0x8000000FF2 = .ok (.load 15 15) ∧ (Instr.load 15 15).wellFormed cfg16 = true := ⟨rfl, by decide⟩
theorem witness_EncodeInvertsDecode_encode_injective : ∃ w, encode cfg16 (.load 15 15) = .ok w := ⟨_, rfl⟩
theorem witness_EncodeInvertsDecode_decode_injective : ∃ i, decodeWord true 0x0000000FF2 = .ok i := ⟨_, rfl⟩
theorem witness_DecodeClassifiesEveryWord_unknown : 10 < (0x0B : InstrWord).toNat % 16 := by decide
theorem witness_DecodeClassifiesEveryWord_padding :
    (0x040000000A : InstrWord).toNat % 16 ≤ 10 ∧
    (0x040000000A : InstrWord) &&& paddingBits ((0x040000000A : InstrWord).toNat % 16) ≠ 0 := by decide
theorem witness_DecodeClassifiesEveryWord_accepted :
    (0x03FFFFFFFA : InstrWord).toNat % 16 ≤ 10 ∧
    (0x03FFFFFFFA : InstrWord) &&& paddingBits ((0x03FFFFFFFA : InstrWord).toNat % 16) = 0 := by decide
theorem witness_EncodedImageFetchesItsRecords :
    (∀ r ∈ [Record.nop, Record.load 15 15], r.wellFormed cfg16 = true) ∧
    ∃ image s, encodeImage cfg16 [.nop, .load 15 15] = .ok image ∧ launch cfg16 image [] Presets.none = .next s ∧
      [Record.nop, Record.load 15 15][1]? = some (.load 15 15) :=
  ⟨by decide, _, _, rfl, rfl, rfl⟩
theorem witness_DumpListsClippedRange : ((15 : Nat), (-1 : Int)) ∈
    dump (start cfg16 0 0 0 0 [(15, 0xFFFFFFFF)] []) 0 20 := by decide

end Sys2Proof.Tests
end

section
/-! PROOF. The register-0 policy (10_state.md R17, R18): what a register read and a register write do, and that a
hard-wired R0 holds 0 in every reachable state. -/

namespace Sys2Proof.Machine

/-! ## What a launch and a step answer -/

/-- A launch that starts a run has passed every check of R54 and R88 and starts from the preset reset state. -/
theorem launch_cases {cfg : Config} {image : List Byte} {inq : List Int} {p : Presets} {s : State}
    (h : launch cfg image inq p = .next s) :
    image.length % wordBytes = 0 ∧ image.length / wordBytes ≤ maxProgramWords ∧ illegalPreset cfg p = none ∧
      s = applyPresets p (State.resetWith cfg image inq) := by
  unfold launch at h
  split at h
  · cases h
  next hlen =>
    split at h
    · cases h
    next hmax =>
      split at h
      · cases h
      next hpre =>
        cases h
        exact ⟨Decidable.not_not.mp hlen, Nat.le_of_not_lt hmax, hpre, rfl⟩

/-- A step changes the status alone (a termination check or a decode fault), or has an instruction's effect. -/
theorem step_status_or_effect {s t : State} (h : step s = .next t) :
    (∃ st, t = { s with status := st }) ∨ Effect s t := by
  obtain ⟨-, ⟨-, ht⟩ | ⟨-, -, ht⟩ | ⟨-, -, ⟨e, -, ht⟩ | ⟨i, -, hi⟩⟩⟩ := step_cases h
  · exact .inl ⟨_, ht⟩
  · exact .inl ⟨_, ht⟩
  · exact .inl ⟨_, ht⟩
  · exact .inr (effect_of_exec hi)

/-! ## One register access -/

/-- A register read through the policy (R17). -/
theorem readReg_eq (s : State) (i : RegIdx) :
    readReg s i = if s.config.r0Hardwired = true ∧ i = 0 then 0 else s.X i := by
  simp only [readReg, isHardwired_iff]

/-- A register write through the policy (R18). -/
theorem writeReg_setsReg (s : State) (i : RegIdx) (v : Word) : SetsReg s (writeReg i v s) i v :=
  setsReg_of_X fun _ => rfl

/-! ## A hard-wired R0 holds 0 throughout a run -/

/-- "X[0] = 0" when R0 is hard-wired (R18): the part of `StateInv` that speaks of registers. -/
def HardwiredZero (s : State) : Prop := s.config.r0Hardwired = true → s.X 0 = 0

/-- Only the parameters and the registers decide it. -/
theorem HardwiredZero.congr {s t : State} (hs : HardwiredZero s) (hc : t.config = s.config) (hr : t.regs = s.regs) :
    HardwiredZero t := by
  unfold HardwiredZero State.X
  rw [hc, hr]
  exact hs

theorem hardwiredZero_resetWith (cfg : Config) (image : List Byte) (inq : List Int) :
    HardwiredZero (State.resetWith cfg image inq) :=
  fun _ => resetWith_X cfg image inq 0

/-- A write to register 0 is discarded, and a write to another register leaves register 0 alone. -/
theorem HardwiredZero.after_writeReg {s : State} (hs : HardwiredZero s) (d : RegIdx) (v : Word) :
    HardwiredZero (writeReg d v s) := by
  intro hw
  rw [writeReg_config] at hw
  have hset := writeReg_setsReg s d v
  by_cases hd : d = 0
  · subst hd
    rw [hset.discarded ⟨hw, rfl⟩, hs hw]
  · rw [hset.others 0 (Ne.symm hd), hs hw]

theorem HardwiredZero.after_presetReg {s : State} (hs : HardwiredZero s) (p : Presets) (i : RegIdx) :
    HardwiredZero (presetReg p i s) := by
  unfold presetReg
  split
  · exact hs.after_writeReg i _
  · exact hs

/-- The register presets are written one by one through the policy; the memory presets touch no register. -/
theorem HardwiredZero.after_applyPresets {s : State} (hs : HardwiredZero s) (p : Presets) :
    HardwiredZero (applyPresets p s) := by
  have hregs : HardwiredZero (allRegs.foldl (fun t i => presetReg p i t) s) :=
    List.foldlRecOn allRegs _ hs fun _ ht i _ => ht.after_presetReg p i
  exact hregs.congr rfl rfl

theorem HardwiredZero.after_effect {s t : State} (hs : HardwiredZero s) (h : Effect s t) : HardwiredZero t := by
  cases h with
  | outOfRange => exact hs.congr rfl rfl
  | register d v => exact (hs.after_writeReg d v).congr rfl rfl
  | cell => exact hs.congr rfl rfl
  | advance => exact hs.congr rfl rfl
  | jump => exact hs.congr rfl rfl
  | pop d =>
    have hpop : HardwiredZero (inPop s).2 := hs.congr (inPop_config s) (inPop_regs s)
    exact (hpop.after_writeReg d (inPop s).1).congr rfl rfl
  | log => exact hs.congr rfl rfl

theorem hardwiredZero_of_launch {cfg : Config} {image : List Byte} {inq : List Int} {p : Presets} {s : State}
    (h : launch cfg image inq p = .next s) : HardwiredZero s := by
  obtain ⟨-, -, -, rfl⟩ := launch_cases h
  exact (hardwiredZero_resetWith cfg image inq).after_applyPresets p

theorem HardwiredZero.after_step {s t : State} (hs : HardwiredZero s) (h : step s = .next t) : HardwiredZero t := by
  obtain ⟨st, rfl⟩ | he := step_status_or_effect h
  · exact hs.congr rfl rfl
  · exact hs.after_effect he

theorem Reachable.hardwiredZero {s : State} (h : Reachable s) : HardwiredZero s := by
  induction h with
  | launched h => exact hardwiredZero_of_launch h
  | stepped _ h ih => exact ih.after_step h

/-- Settles O17: reads and writes by their policy lemmas, and the whole run by induction over `Reachable`. -/
theorem registerZeroPolicy : Obligations.RegisterZeroPolicy :=
  ⟨readReg_eq, writeReg_setsReg, fun _ h => h.hardwiredZero⟩

end Sys2Proof.Machine
end

section
/-! PROOF. The encoder and the decoder (30_encoding.md R41 to R49): a decoded instruction is its opcode and its two
fields, an encoded record is the word of such an instruction, and each map undoes the other. -/

namespace Sys2Proof

open Machine

/-! ## An instruction as its opcode and two fields -/

/-- The instruction of an opcode and its fields B and C; an absent field is the empty bit vector (R38). -/
def Instr.ofFields : (op : Opcode) → BitVec (fieldWidth (layout op).b) → BitVec (fieldWidth (layout op).c) → Instr
  | .nop, _, _ => .nop
  | .ldi, b, c => .ldi b c
  | .load, b, c => .load b c
  | .store, b, c => .store b c
  | .neq, b, c => .neq b c
  | .add, b, c => .add b c
  | .sub, b, c => .sub b c
  | .jmp, b, _ => .jmp b
  | .jz, b, c => .jz b c
  | .input, b, c => .input b c
  | .output, b, c => .output b c

theorem assemble_eq_ofFields (op : Opcode) (w : InstrWord) :
    assemble op w = .ofFields op (fieldB op w) (fieldC op w) := by
  cases op <;> rfl

theorem exists_ofFields : ∀ i : Instr, ∃ op b c, i = .ofFields op b c
  | .nop => ⟨.nop, 0#0, 0#0, rfl⟩
  | .ldi b c => ⟨.ldi, b, c, rfl⟩
  | .load b c => ⟨.load, b, c, rfl⟩
  | .store b c => ⟨.store, b, c, rfl⟩
  | .neq b c => ⟨.neq, b, c, rfl⟩
  | .add b c => ⟨.add, b, c, rfl⟩
  | .sub b c => ⟨.sub, b, c, rfl⟩
  | .jmp b => ⟨.jmp, b, 0#0, rfl⟩
  | .jz b c => ⟨.jz, b, c, rfl⟩
  | .input b c => ⟨.input, b, c, rfl⟩
  | .output b c => ⟨.output, b, c, rfl⟩

/-- The word of an instruction as a number: the opcode, field B from bit 4 and field C just above it (R33). -/
theorem word_ofFields_toNat (op : Opcode) (b : BitVec (fieldWidth (layout op).b))
    (c : BitVec (fieldWidth (layout op).c)) :
    (Instr.ofFields op b c).word.toNat = op.code.toNat + b.toNat * 2 ^ offsetB + c.toNat * 2 ^ offsetC (layout op) := by
  cases op with
  | nop =>
    have hb : b.toNat = 0 := Nat.lt_one_iff.mp b.isLt
    have hc : c.toNat = 0 := Nat.lt_one_iff.mp c.isLt
    rw [hb, hc]; rfl
  | jmp =>
    have hc : c.toNat = 0 := Nat.lt_one_iff.mp c.isLt
    rw [hc, Nat.zero_mul]
    exact Laws.WordValue.jmp b
  | ldi => exact Laws.WordValue.ldi b c
  | load => exact Laws.WordValue.load b c
  | store => exact Laws.WordValue.store b c
  | neq => exact Laws.WordValue.neq b c
  | add => exact Laws.WordValue.add b c
  | sub => exact Laws.WordValue.sub b c
  | jz => exact Laws.WordValue.jz b c
  | input => exact Laws.WordValue.input b c
  | output => exact Laws.WordValue.output b c

/-! ## Splitting a number into fields -/

/-- A field put above a low part leaves everything above the field 0. -/
theorem add_field_lt {low x off width : Nat} (hlow : low < 2 ^ off) (hx : x < 2 ^ width) :
    low + x * 2 ^ off < 2 ^ (off + width) := by
  have hle : (x + 1) * 2 ^ off ≤ 2 ^ width * 2 ^ off := Nat.mul_le_mul_right _ hx
  rw [Nat.add_one_mul] at hle
  rw [Nat.pow_add, Nat.mul_comm (2 ^ off)]
  omega

/-- A field is read back from between a low part and a high part. -/
theorem field_of_sum {low x high off width : Nat} (hlow : low < 2 ^ off) (hx : x < 2 ^ width) :
    (low + x * 2 ^ off + high * 2 ^ (off + width)) / 2 ^ off % 2 ^ width = x := by
  have hsum : low + x * 2 ^ off + high * 2 ^ (off + width) = low + 2 ^ off * (x + 2 ^ width * high) := by ring
  rw [hsum, Nat.add_mul_div_left _ _ (Nat.two_pow_pos off), Nat.div_eq_of_lt hlow, Nat.zero_add,
    Nat.add_mul_mod_self_left, Nat.mod_eq_of_lt hx]

/-- A number is its part below a field plus the field, when nothing lies above the field. -/
theorem sum_of_field {n off width : Nat} (hn : n < 2 ^ (off + width)) :
    n % 2 ^ off + n / 2 ^ off % 2 ^ width * 2 ^ off = n := by
  rw [Nat.mul_comm, ← Nat.mod_mul, ← Nat.pow_add, Nat.mod_eq_of_lt hn]

/-! ## An instruction's word, read back field by field -/

section OfFields
variable (op : Opcode) (b : BitVec (fieldWidth (layout op).b)) (c : BitVec (fieldWidth (layout op).c))

theorem code_add_fieldB_lt : op.code.toNat + b.toNat * 2 ^ offsetB < 2 ^ offsetC (layout op) :=
  add_field_lt op.code.isLt b.isLt

@[simp] theorem opcodeNibble_word_ofFields : opcodeNibble (Instr.ofFields op b c).word = op.code := by
  apply BitVec.eq_of_toNat_eq
  have hsum : (Instr.ofFields op b c).word.toNat =
      op.code.toNat + (b.toNat + 2 ^ fieldWidth (layout op).b * c.toNat) * 16 := by
    rw [word_ofFields_toNat, offsetC, offsetB]; ring
  rw [opcodeNibble_toNat, hsum, Nat.add_mul_mod_self_right, Nat.mod_eq_of_lt op.code.isLt]

@[simp] theorem fieldB_word_ofFields : fieldB op (Instr.ofFields op b c).word = b := by
  apply BitVec.eq_of_toNat_eq
  rw [fieldB, extract_toNat, word_ofFields_toNat]
  exact field_of_sum op.code.isLt b.isLt

@[simp] theorem fieldC_word_ofFields : fieldC op (Instr.ofFields op b c).word = c := by
  apply BitVec.eq_of_toNat_eq
  rw [fieldC, extract_toNat, word_ofFields_toNat]
  simpa using field_of_sum (high := 0) (code_add_fieldB_lt op b) c.isLt

theorem word_ofFields_unpadded : (Instr.ofFields op b c).word &&& padMask (layout op) = 0 := by
  rw [and_padMask_eq_zero_iff, word_ofFields_toNat]
  exact add_field_lt (code_add_fieldB_lt op b) c.isLt

end OfFields

/-! ## What the decoder answers -/

theorem opcodeNibble_eq_ofNat (w : InstrWord) : opcodeNibble w = BitVec.ofNat 4 w.toNat := by
  apply BitVec.eq_of_toNat_eq
  rw [opcodeNibble_toNat, BitVec.toNat_ofNat]

/-- The decoder on a word of a known opcode (R44, R46). -/
theorem decodeWord_of_ofNibble (strict : Bool) {w : InstrWord} {op : Opcode}
    (h : Opcode.ofNibble (opcodeNibble w) = some op) :
    decodeWord strict w =
      if strict = true ∧ w &&& padMask (layout op) ≠ 0 then
        .error (.nonZeroPadding (opcodeNibble w) (w &&& padMask (layout op)))
      else .ok (assemble op w) := by
  simp only [decodeWord, h]

theorem decodeWord_of_ofNibble_none (strict : Bool) {w : InstrWord} (h : Opcode.ofNibble (opcodeNibble w) = none) :
    decodeWord strict w = .error (.unknownOpcode (opcodeNibble w)) := by
  simp only [decodeWord, h]

/-- A known opcode is accepted when its padding is 0 or ignored. -/
theorem decodeWord_eq_assemble {strict : Bool} {w : InstrWord} {op : Opcode}
    (hop : Opcode.ofNibble (opcodeNibble w) = some op) (hpad : strict = false ∨ w &&& padMask (layout op) = 0) :
    decodeWord strict w = .ok (assemble op w) := by
  rw [decodeWord_of_ofNibble strict hop, if_neg]
  rintro ⟨hstrict, hne⟩
  obtain rfl | hzero := hpad
  · cases hstrict
  · exact hne hzero

/-- A decoded word has a known opcode and, under STRICT_PADDING, no padding bit set; its fields are read from it. -/
theorem decodeWord_eq_ok_cases {strict : Bool} {w : InstrWord} {i : Instr} (h : decodeWord strict w = .ok i) :
    ∃ op, Opcode.ofNibble (opcodeNibble w) = some op ∧ (strict = false ∨ w &&& padMask (layout op) = 0) ∧
      assemble op w = i := by
  cases hop : Opcode.ofNibble (opcodeNibble w) with
  | none =>
    rw [decodeWord_of_ofNibble_none strict hop] at h
    cases h
  | some op =>
    rw [decodeWord_of_ofNibble strict hop] at h
    split at h
    · cases h
    next hpad =>
      rw [not_and_or, Bool.not_eq_true, not_not] at hpad
      exact ⟨op, rfl, hpad, Except.ok.inj h⟩

/-! ## Words and instructions determine each other -/

/-- R47, R48: whatever its fields hold, an instruction's word decodes to the instruction. -/
@[simp] theorem decodeWord_word (strict : Bool) (i : Instr) : decodeWord strict i.word = .ok i := by
  obtain ⟨op, b, c, rfl⟩ := exists_ofFields i
  have hop : Opcode.ofNibble (opcodeNibble (Instr.ofFields op b c).word) = some op := by simp
  simp [decodeWord_eq_assemble hop (.inr (word_ofFields_unpadded op b c)), assemble_eq_ofFields]

theorem word_injective {i j : Instr} (h : i.word = j.word) : i = j := by
  have hi := decodeWord_word true i
  rw [h, decodeWord_word] at hi
  exact (Except.ok.inj hi).symm

/-- A word without padding bits is the word of the instruction it decodes to (R49). -/
theorem word_of_decodeWord {w : InstrWord} {i : Instr} (h : decodeWord true w = .ok i) : i.word = w := by
  obtain ⟨op, hop, hpad, rfl⟩ := decodeWord_eq_ok_cases h
  have hcode : op.code.toNat = w.toNat % 2 ^ offsetB := by
    rw [code_of_ofNibble hop, opcodeNibble_toNat]; rfl
  have hlt : w.toNat < 2 ^ (offsetC (layout op) + fieldWidth (layout op).c) :=
    (and_padMask_eq_zero_iff w (layout op)).mp (hpad.resolve_left (by decide))
  have hlow : w.toNat % 2 ^ offsetC (layout op) =
      w.toNat % 2 ^ offsetB + w.toNat / 2 ^ offsetB % 2 ^ fieldWidth (layout op).b * 2 ^ offsetB := by
    rw [offsetC, Nat.pow_add, Nat.mod_mul, Nat.mul_comm (2 ^ offsetB)]
  apply BitVec.eq_of_toNat_eq
  rw [assemble_eq_ofFields, word_ofFields_toNat, hcode, fieldB, fieldC, extract_toNat, extract_toNat, ← hlow,
    sum_of_field hlt]

/-! ## The records the encoder accepts -/

/-- A well-formed record has every operand between 0 and its field's maximum (R40), as the table gives it. -/
theorem wellFormed_iff (cfg : Config) (r : Record) : r.wellFormed cfg = true ↔
    ∀ fv ∈ r.fieldValues, 0 ≤ fv.2 ∧ fv.2 ≤ (fv.1.kind.max cfg : Int) := by
  cases r <;> simp [Record.wellFormed, regInRange, constInRange, addrInRange, targetInRange, Kind.max]

/-- The encoder gives the packed word of exactly the well-formed records (R41, R43). -/
theorem encode_eq_ok_iff_wellFormed (cfg : Config) (r : Record) (w : InstrWord) :
    encode cfg r = .ok w ↔ r.wellFormed cfg = true ∧ pack r = w := by
  rw [encode_eq_ok_iff, firstViolation_eq_none_iff, wellFormed_iff]

/-- Every legal operand fits its field's width (R34 to R37). -/
theorem Kind.max_lt_two_pow_width (cfg : Config) (k : Kind) : k.max cfg < 2 ^ k.width := by
  cases k with
  | reg => exact (by decide : 15 < 2 ^ 4)
  | const => exact (by decide : 2 ^ 26 - 1 < 2 ^ 26)
  | target => exact (by decide : 2 ^ 31 - 1 < 2 ^ 31)
  | addr =>
    show min cfg.memSize (2 ^ 31) - 1 < 2 ^ 31
    omega

/-- A legal operand is the number some field value stands for. -/
theorem exists_fieldValue {cfg : Config} (k : Kind) {v : Int} (h : 0 ≤ v ∧ v ≤ (k.max cfg : Int)) :
    ∃ x : BitVec k.width, (x.toNat : Int) = v := by
  obtain ⟨n, rfl⟩ := Int.eq_ofNat_of_zero_le h.1
  have hn : n < 2 ^ k.width := Nat.lt_of_le_of_lt (Int.ofNat_le.mp h.2) (k.max_lt_two_pow_width cfg)
  exact ⟨BitVec.ofNat _ n, by rw [BitVec.toNat_ofNat, Nat.mod_eq_of_lt hn]⟩

theorem exists_fieldValues {cfg : Config} (kb kc : Kind) {nb nc : FieldName} {ob oc : Nat} {b c : Int}
    (h : ∀ fv ∈ [((⟨nb, kb, ob⟩ : Field), b), (⟨nc, kc, oc⟩, c)], 0 ≤ fv.2 ∧ fv.2 ≤ (fv.1.kind.max cfg : Int)) :
    ∃ (x : BitVec kb.width) (y : BitVec kc.width), (x.toNat : Int) = b ∧ (y.toNat : Int) = c := by
  obtain ⟨hb, hc⟩ := List.forall_mem_cons.mp h
  obtain ⟨x, hx⟩ := exists_fieldValue kb hb
  obtain ⟨y, hy⟩ := exists_fieldValue kc (List.forall_mem_cons.mp hc).1
  exact ⟨x, y, hx, hy⟩

/-- A well-formed record is the record of a decoded instruction (R40). -/
theorem exists_toRecord {cfg : Config} {r : Record} (h : r.wellFormed cfg = true) : ∃ i : Instr, i.toRecord = r := by
  rw [wellFormed_iff] at h
  cases r with
  | nop => exact ⟨.nop, rfl⟩
  | jmp b =>
    obtain ⟨hb, -⟩ := List.forall_mem_cons.mp h
    obtain ⟨x, rfl⟩ := exists_fieldValue .target hb
    exact ⟨.jmp x, rfl⟩
  | ldi b c =>
    obtain ⟨x, y, rfl, rfl⟩ := exists_fieldValues .const .reg h
    exact ⟨.ldi x y, rfl⟩
  | load b c =>
    obtain ⟨x, y, rfl, rfl⟩ := exists_fieldValues .reg .addr h
    exact ⟨.load x y, rfl⟩
  | store b c =>
    obtain ⟨x, y, rfl, rfl⟩ := exists_fieldValues .addr .reg h
    exact ⟨.store x y, rfl⟩
  | neq b c =>
    obtain ⟨x, y, rfl, rfl⟩ := exists_fieldValues .reg .addr h
    exact ⟨.neq x y, rfl⟩
  | add b c =>
    obtain ⟨x, y, rfl, rfl⟩ := exists_fieldValues .reg .reg h
    exact ⟨.add x y, rfl⟩
  | sub b c =>
    obtain ⟨x, y, rfl, rfl⟩ := exists_fieldValues .reg .reg h
    exact ⟨.sub x y, rfl⟩
  | jz b c =>
    obtain ⟨x, y, rfl, rfl⟩ := exists_fieldValues .reg .target h
    exact ⟨.jz x y, rfl⟩
  | input b c =>
    obtain ⟨x, y, rfl, rfl⟩ := exists_fieldValues .const .reg h
    exact ⟨.input x y, rfl⟩
  | output b c =>
    obtain ⟨x, y, rfl, rfl⟩ := exists_fieldValues .const .reg h
    exact ⟨.output x y, rfl⟩

/-- An encoded word is the word of an instruction with the encoded record. -/
theorem encode_eq_ok_cases {cfg : Config} {r : Record} {w : InstrWord} (h : encode cfg r = .ok w) :
    ∃ i : Instr, i.toRecord = r ∧ i.word = w := by
  obtain ⟨hwf, hw⟩ := (encode_eq_ok_iff_wellFormed ..).mp h
  obtain ⟨i, rfl⟩ := exists_toRecord hwf
  exact ⟨i, rfl, hw⟩

theorem encode_toRecord {cfg : Config} {i : Instr} (h : i.wellFormed cfg = true) :
    encode cfg i.toRecord = .ok i.word :=
  (encode_eq_ok_iff_wellFormed ..).mpr ⟨h, rfl⟩

/-- Settles O38: the encoder's table-driven range check is the independently written one. -/
theorem encodeAcceptsExactlyWellFormed : Obligations.EncodeAcceptsExactlyWellFormed := by
  intro cfg r
  simp only [encode_eq_ok_iff_wellFormed, exists_and_left, exists_eq', and_true]

/-! ## The first field out of range -/

/-- A violation found is at the first field, or the first field is in range and it is found further on (R42). -/
theorem firstViolation_cons_eq_some {cfg : Config} {op : Opcode} {f : Field} {v : Int} {rest : List (Field × Int)}
    {e : FieldOutOfRange} (h : firstViolation cfg op ((f, v) :: rest) = some e) :
    ((v < 0 ∨ (f.kind.max cfg : Int) < v) ∧ e = ⟨f.name, op, v, f.kind.max cfg⟩) ∨
    ((0 ≤ v ∧ v ≤ (f.kind.max cfg : Int)) ∧ firstViolation cfg op rest = some e) := by
  rw [firstViolation] at h
  split at h
  next hout => exact .inl ⟨hout, (Option.some.inj h).symm⟩
  next hin =>
    rw [not_or, not_lt, not_lt] at hin
    exact .inr ⟨hin, h⟩

/-- A record's operands are those of its opcode's fields: none, B alone, or B and C (R38, R40). -/
theorem fieldValues_cases (r : Record) :
    (layout r.opcode = ⟨none, none⟩ ∧ r.operands = [] ∧ r.fieldValues = []) ∨
    (∃ kb b, layout r.opcode = ⟨some kb, none⟩ ∧ r.operands = [b] ∧ r.fieldValues = [(⟨.B, kb, offsetB⟩, b)]) ∨
    ∃ kb kc b c, layout r.opcode = ⟨some kb, some kc⟩ ∧ r.operands = [b, c] ∧
      r.fieldValues = [(⟨.B, kb, offsetB⟩, b), (⟨.C, kc, offsetC (layout r.opcode)⟩, c)] := by
  cases r with
  | nop => exact .inl ⟨rfl, rfl, rfl⟩
  | jmp => exact .inr (.inl ⟨_, _, rfl, rfl, rfl⟩)
  | _ => exact .inr (.inr ⟨_, _, _, _, rfl, rfl, rfl⟩)

theorem operands_eq_map_fieldValues (r : Record) : r.operands = r.fieldValues.map Prod.snd := by
  cases r <;> rfl

theorem operand_nonneg {cfg : Config} {r : Record} (h : r.wellFormed cfg = true) {v : Int} (hv : v ∈ r.operands) :
    0 ≤ v := by
  rw [operands_eq_map_fieldValues] at hv
  obtain ⟨fv, hfv, rfl⟩ := List.mem_map.mp hv
  exact ((wellFormed_iff cfg r).mp h fv hfv).1

theorem encode_error_of_negative (cfg : Config) {r : Record} {v : Int} (hv : v ∈ r.operands) (hneg : v < 0) :
    ∃ e, encode cfg r = .error e := by
  cases h : encode cfg r with
  | error e => exact ⟨e, rfl⟩
  | ok w => exact absurd (operand_nonneg ((encode_eq_ok_iff_wellFormed ..).mp h).1 hv) hneg.not_ge

/-- Settles O39: fields are checked in order, so an error is about the first one out of range. -/
theorem encodeNamesFirstFieldOutOfRange : Obligations.EncodeNamesFirstFieldOutOfRange := by
  refine ⟨fun cfg r ⟨v, hv, hneg⟩ => encode_error_of_negative cfg hv hneg, fun cfg r e he => ?_⟩
  rw [encode_eq_error_iff] at he
  obtain ⟨-, -, hf⟩ | ⟨kb, b, hl, ho, hf⟩ | ⟨kb, kc, b, c, hl, ho, hf⟩ := fieldValues_cases r
  · rw [hf] at he
    cases he
  · rw [hf] at he
    obtain ⟨hout, rfl⟩ | ⟨-, he⟩ := firstViolation_cons_eq_some he
    · rw [hl, ho]
      exact ⟨rfl, hout, fun _ => ⟨rfl, rfl⟩, nofun⟩
    · cases he
  · rw [hf] at he
    obtain ⟨hout, rfl⟩ | ⟨hin, he⟩ := firstViolation_cons_eq_some he
    · rw [hl, ho]
      exact ⟨rfl, hout, fun _ => ⟨rfl, rfl⟩, nofun⟩
    · obtain ⟨hout, rfl⟩ | ⟨-, he⟩ := firstViolation_cons_eq_some he
      · rw [hl, ho]
        exact ⟨rfl, hout, nofun, fun _ => ⟨rfl, rfl, b, _, rfl, rfl, hin⟩⟩
      · cases he

/-! ## Padding -/

/-- The masks of R39 are the padding bits of the Field Layout Table. -/
theorem paddingBits_code (op : Opcode) : paddingBits op.code.toNat = padMask (layout op) := by
  cases op <;> rfl

theorem paddingBits_of_ofNibble {w : InstrWord} {op : Opcode} (h : Opcode.ofNibble (opcodeNibble w) = some op) :
    paddingBits (w.toNat % 16) = padMask (layout op) := by
  rw [← opcodeNibble_toNat, ← code_of_ofNibble h, paddingBits_code]

/-- Clearing the bits from k on leaves a field below k as it was. -/
theorem extractLsb'_clear_high (w : InstrWord) {start len k : Nat} (h : start + len ≤ k) :
    (w &&& ~~~ (BitVec.allOnes 40 <<< k)).extractLsb' start len = w.extractLsb' start len := by
  ext i hi
  have hk : start + i < k := by omega
  by_cases h40 : start + i < 40
  · simp [hk, h40]
  · simp [BitVec.getLsbD_of_ge w (start + i) (Nat.le_of_not_lt h40)]

section ClearPadding
variable (op : Opcode) (w : InstrWord)

theorem opcodeNibble_clear_padding : opcodeNibble (w &&& ~~~ padMask (layout op)) = opcodeNibble w :=
  extractLsb'_clear_high w (Nat.le_add_right_of_le (Nat.le_add_right ..))

theorem assemble_clear_padding : assemble op (w &&& ~~~ padMask (layout op)) = assemble op w := by
  have hB : fieldB op (w &&& ~~~ padMask (layout op)) = fieldB op w := extractLsb'_clear_high w (Nat.le_add_right ..)
  have hC : fieldC op (w &&& ~~~ padMask (layout op)) = fieldC op w := extractLsb'_clear_high w (Nat.le_refl _)
  rw [assemble_eq_ofFields, hB, hC, ← assemble_eq_ofFields]

theorem clear_padding_unpadded : w &&& ~~~ padMask (layout op) &&& padMask (layout op) = 0 := by
  rw [BitVec.and_assoc, BitVec.and_comm (~~~ _), BitVec.and_not_self]
  exact BitVec.and_zero

end ClearPadding

/-- With its padding cleared, a word decodes to what its fields say under STRICT_PADDING (R46). -/
theorem decodeWord_clear_padding {w : InstrWord} {op : Opcode} (h : Opcode.ofNibble (opcodeNibble w) = some op) :
    decodeWord true (w &&& ~~~ padMask (layout op)) = .ok (assemble op w) := by
  have hop : Opcode.ofNibble (opcodeNibble (w &&& ~~~ padMask (layout op))) = some op := by
    rw [opcodeNibble_clear_padding, h]
  rw [decodeWord_eq_assemble hop (.inr (clear_padding_unpadded op w)), assemble_clear_padding]

/-! ## Both round trips, and which words decode -/

/-- Settles O40: the record is an instruction's, and the encoded word is that instruction's word. -/
theorem decodeInvertsEncode : Obligations.DecodeInvertsEncode := by
  intro cfg strict r hwf
  obtain ⟨i, rfl⟩ := exists_toRecord hwf
  refine ⟨i.word, i, encode_toRecord hwf, ?_, rfl⟩
  rw [decode, wordOfBytes_bytesOfWord, decodeWord_word]

/-- The word of a decoded instruction is the decoded word with its padding cleared (R49). -/
theorem word_of_decodeWord_lenient {w : InstrWord} {i : Instr} (h : decodeWord false w = .ok i) :
    i.word = w &&& ~~~ paddingBits (w.toNat % 16) := by
  obtain ⟨op, hop, -, rfl⟩ := decodeWord_eq_ok_cases h
  rw [paddingBits_of_ofNibble hop]
  exact word_of_decodeWord (decodeWord_clear_padding hop)

/-- Settles O42: a decoded instruction's word is the word it was decoded from, and an encoded record's word is an
instruction's, which both injectivities follow from. -/
theorem encodeInvertsDecode : Obligations.EncodeInvertsDecode := by
  refine ⟨?strict, ?lenient, ?records, ?words⟩
  case strict =>
    intro cfg w i h hwf
    rw [encode_toRecord hwf, word_of_decodeWord h]
  case lenient =>
    intro cfg w i h hwf
    rw [encode_toRecord hwf, word_of_decodeWord_lenient h]
  case records =>
    intro cfg r r' w h h'
    obtain ⟨i, rfl, hi⟩ := encode_eq_ok_cases h
    obtain ⟨j, rfl, hj⟩ := encode_eq_ok_cases h'
    rw [word_injective (hi.trans hj.symm)]
  case words =>
    intro w w' i h h'
    rw [← word_of_decodeWord h, word_of_decodeWord h']

/-- Settles O43: the three cases of the decoder, the opcode's padding mask being the one of R39. -/
theorem decodeClassifiesEveryWord : Obligations.DecodeClassifiesEveryWord := by
  intro strict w
  rw [← opcodeNibble_eq_ofNat, ← opcodeNibble_toNat]
  cases hop : Opcode.ofNibble (opcodeNibble w) with
  | none =>
    have hbig := (ofNibble_none_iff _).mp hop
    exact ⟨fun _ => decodeWord_of_ofNibble_none strict hop, fun hle => absurd hbig hle.not_gt,
      fun hle => absurd hbig hle.not_gt⟩
  | some op =>
    have hmask : paddingBits (opcodeNibble w).toNat = padMask (layout op) := by
      rw [opcodeNibble_toNat, paddingBits_of_ofNibble hop]
    rw [hmask]
    refine ⟨fun hbig => ?_, fun _ hstrict hpad => ?_, fun _ hpad => ?_⟩
    · rw [(ofNibble_none_iff _).mpr hbig] at hop
      cases hop
    · rw [decodeWord_of_ofNibble strict hop, if_pos ⟨hstrict, hpad⟩]
    · exact ⟨assemble op w, decodeWord_eq_assemble hop hpad, decodeWord_clear_padding hop⟩

end Sys2Proof
end

section
/-! PROOF. The cycle of the engine (40_engine.md R55 to R61): a running state always steps, by completing one
instruction or by ending the run, and so every run ends within its step budget. -/

namespace Sys2Proof.Machine

/-! ## From which states a step is defined -/

/-- A termination check that ends the run sets the status and nothing else (R55). -/
theorem step_of_startCheck {s : State} {st : Status} (hr : s.status = .running) (h : startCheck s = some st) :
    step s = .next { s with status := st } := by
  unfold step
  rw [hr, h]
  rfl

/-- Settles O21: the range check comes first, so the budget check is reached only at pc < P. -/
theorem stepChecksTermination : Obligations.StepChecksTermination := by
  refine fun s hr => ⟨fun hpc => ?_, fun hpc hs => ?_⟩
  · exact step_of_startCheck hr (if_pos hpc)
  · exact step_of_startCheck hr ((if_neg hpc.not_ge).trans (if_pos hs))

theorem status_eq_running_iff {st : Status} : st = .running ↔ st.terminal = false := by
  cases st <;> simp [Status.terminal]

/-- A running state steps: no check, decode or instruction stops the machine without a next state. -/
theorem exists_step_of_running {s : State} (hr : s.status = .running) : ∃ t, step s = .next t := by
  obtain ⟨-, hend⟩ | ⟨-, -, hend⟩ | ⟨hpc, hs, -⟩ := startCheck_cases s
  · exact ⟨_, step_of_startCheck hr hend⟩
  · exact ⟨_, step_of_startCheck hr hend⟩
  · rw [step_eq hr hpc hs]
    cases fetchDecode s with
    | error e => exact ⟨_, rfl⟩
    | ok i =>
      obtain ⟨t, ht, -⟩ := exec_effect i s
      exact ⟨t, ht⟩

theorem step_ne_next_of_terminal {s : State} (ht : s.status.terminal = true) (t : State) : step s ≠ .next t := by
  intro h
  rw [(step_cases h).1] at ht
  cases ht

/-! ## A step completes an instruction or ends the run -/

/-- The statuses in which a step from s can end the run; a fault's record names the pc of s, and its kind is one
that is raised (R55, R60; 60_exceptions.md R80, R82). -/
inductive EndStatus (s : State) : Status → Prop where
  | normal : EndStatus s .haltedNormal
  | stepLimit : EndStatus s .haltedStepLimit
  | fault {f : Fault} (hpc : f.pc = s.pc) (hcode : f.code = 1 ∨ f.code = 2 ∨ f.code = 3) :
      EndStatus s (.haltedFault f)

theorem EndStatus.terminal {s : State} {st : Status} (h : EndStatus s st) : st.terminal = true := by
  cases h <;> rfl

theorem EndStatus.of_decodeFault (s : State) (e : DecodeError) : EndStatus s (.haltedFault (decodeFault s.pc e)) := by
  cases e with
  | unknownOpcode => exact .fault rfl (.inl rfl)
  | nonZeroPadding => exact .fault rfl (.inr (.inl rfl))

/-- An instruction completes (R59) or takes the memory fault, which changes the status alone (R60). -/
theorem Effect.completes_or_ends {s t : State} (h : Effect s t) :
    (∃ npc, Completes s t npc) ∨ ∃ st, EndStatus s st ∧ t = { s with status := st } := by
  cases h with
  | outOfRange => exact .inr ⟨_, .fault rfl (.inr (.inr rfl)), rfl⟩
  | register => exact .inl ⟨s.pc + 1, by constructor <;> simp⟩
  | cell => exact .inl ⟨_, rfl, rfl, rfl, rfl, rfl, rfl⟩
  | advance => exact .inl ⟨_, rfl, rfl, rfl, rfl, rfl, rfl⟩
  | jump => exact .inl ⟨_, rfl, rfl, rfl, rfl, rfl, rfl⟩
  | pop => exact .inl ⟨s.pc + 1, by constructor <;> simp⟩
  | log => exact .inl ⟨_, rfl, rfl, rfl, rfl, rfl, rfl⟩

/-- A step completes one instruction, within the budget, or ends the run and changes the status alone. -/
theorem step_completes_or_ends {s t : State} (h : step s = .next t) :
    (s.steps ≠ s.config.stepLimit ∧ ∃ npc, Completes s t npc) ∨
      ∃ st, EndStatus s st ∧ t = { s with status := st } := by
  obtain ⟨-, ⟨-, ht⟩ | ⟨-, -, ht⟩ | ⟨-, hs, ⟨e, -, ht⟩ | ⟨i, -, hi⟩⟩⟩ := step_cases h
  · exact .inr ⟨_, .normal, ht⟩
  · exact .inr ⟨_, .stepLimit, ht⟩
  · exact .inr ⟨_, .of_decodeFault s e, ht⟩
  · exact (effect_of_exec hi).completes_or_ends.imp_left fun hc => ⟨hs, hc⟩

/-- Settles O26: a completed instruction leaves the run going on, so a fault was taken by a step that ends it. -/
theorem faultsArePrecise : Obligations.FaultsArePrecise := by
  intro s t f h hf
  obtain ⟨-, npc, hc⟩ | ⟨st, hend, rfl⟩ := step_completes_or_ends h
  · rw [hc.status, (step_cases h).1] at hf
    cases hf
  · obtain rfl : st = .haltedFault f := hf
    cases hend with
    | fault hpc hcode => exact ⟨rfl, hpc, hcode⟩

/-! ## A run ends within its budget -/

theorem runSteps_of_next {s t : State} (h : step s = .next t) (n : Nat) : runSteps (n + 1) s = runSteps n t := by
  rw [runSteps, h]

theorem runSteps_of_terminal {s : State} (h : s.status.terminal = true) (n : Nat) : runSteps n s = s := by
  cases n with
  | zero => rfl
  | succ n =>
    rw [runSteps]
    split
    next t ht => exact absurd ht (step_ne_next_of_terminal h t)
    · rfl
    · rfl

/-- More steps than the budget leaves end the run: each one uses up a unit of the budget, or ends it (R61). -/
theorem runSteps_ends (n : Nat) : ∀ {s : State}, s.steps ≤ s.config.stepLimit → s.config.stepLimit < s.steps + n →
    (runSteps n s).status.terminal = true ∧ s.steps ≤ (runSteps n s).steps ∧
      (runSteps n s).steps ≤ s.config.stepLimit := by
  induction n with
  | zero => intro s hle hlt; omega
  | succ n ih =>
    intro s hle hlt
    cases hterm : s.status.terminal with
    | true =>
      rw [runSteps_of_terminal hterm]
      exact ⟨hterm, Nat.le_refl _, hle⟩
    | false =>
      obtain ⟨t, ht⟩ := exists_step_of_running (status_eq_running_iff.mpr hterm)
      rw [runSteps_of_next ht]
      obtain ⟨hne, npc, hc⟩ | ⟨st, hend, rfl⟩ := step_completes_or_ends ht
      · have hrest := @ih t
        rw [hc.steps, hc.config] at hrest
        obtain ⟨hhalt, hlow, hhigh⟩ := hrest (by omega) (by omega)
        exact ⟨hhalt, Nat.le_of_succ_le hlow, hhigh⟩
      · rw [runSteps_of_terminal hend.terminal]
        exact ⟨hend.terminal, Nat.le_refl _, hle⟩

/-- Settles O35: the one step beyond the budget that `runToEnd` has is the step that ends the run. -/
theorem runEndsWithinStepLimit : Obligations.RunEndsWithinStepLimit :=
  ⟨fun _ => step_ne_next_of_terminal, fun _ hle => runSteps_ends _ hle (by omega)⟩

end Sys2Proof.Machine
end

section
/-! PROOF. Data movement (41_data_movement.md R63 to R66): what a commit leaves unchanged after a write of one
register, of one cell or of nothing, and NOP, LDI, LOAD and STORE from it. -/

namespace Sys2Proof

/-! ## The encoder's answer by its first field out of range -/

theorem firstViolation_cons_of_out {cfg : Config} {op : Opcode} {f : Field} {v : Int} (rest : List (Field × Int))
    (h : v < 0 ∨ (f.kind.max cfg : Int) < v) :
    firstViolation cfg op ((f, v) :: rest) = some ⟨f.name, op, v, f.kind.max cfg⟩ :=
  if_pos h

theorem firstViolation_cons_of_in {cfg : Config} {op : Opcode} {f : Field} {v : Int} (rest : List (Field × Int))
    (h : 0 ≤ v ∧ v ≤ (f.kind.max cfg : Int)) :
    firstViolation cfg op ((f, v) :: rest) = firstViolation cfg op rest :=
  if_neg (by omega)

/-- R42 for LDI: the constant is checked first. -/
theorem encode_ldi_of_const_out (cfg : Config) {b : Int} (c : Int) (hb : b < 0 ∨ 67108863 < b) :
    encode cfg (.ldi b c) = .error ⟨.B, .ldi, b, 67108863⟩ :=
  (encode_eq_error_iff ..).mpr (firstViolation_cons_of_out _ hb)

/-- R42 for LDI: the register is checked once the constant is in range. -/
theorem encode_ldi_of_reg_out (cfg : Config) {b c : Int} (hb : 0 ≤ b ∧ b ≤ 67108863) (hc : c < 0 ∨ 15 < c) :
    encode cfg (.ldi b c) = .error ⟨.C, .ldi, c, 15⟩ :=
  (encode_eq_error_iff ..).mpr ((firstViolation_cons_of_in _ hb).trans (firstViolation_cons_of_out _ hc))

/-! ## Addresses at encode -/

/-- ADDR_MAX names a cell of the memory (R9). -/
theorem Config.addrMax_lt_memSize (cfg : Config) : cfg.addrMax < cfg.memSize := by
  have hpos : 0 < cfg.memSize := Nat.two_pow_pos _
  unfold Config.addrMax
  omega

/-- R65 with R36: the encoder gives no LOAD word an address outside the memory. -/
theorem encode_load_ne_ok {cfg : Config} {b c : Int} (hc : (cfg.memSize : Int) ≤ c) (w : InstrWord) :
    encode cfg (.load b c) ≠ .ok w := by
  intro h
  have hwf := ((encode_eq_ok_iff_wellFormed ..).mp h).1
  simp only [Record.wellFormed, addrInRange, Bool.and_eq_true, decide_eq_true_eq] at hwf
  obtain ⟨-, -, hle⟩ := hwf
  have hlt := cfg.addrMax_lt_memSize
  omega

/-! ## A NOP word's padding -/

/-- Clearing bits that are 0 already changes nothing. -/
theorem and_high_eq_self {w : InstrWord} {k : Nat} (h : w.toNat % 2 ^ k = 0) :
    w &&& (BitVec.allOnes 40 <<< k) = w := by
  refine BitVec.eq_of_getLsbD_eq fun i hi => ?_
  simp only [BitVec.getLsbD_and, BitVec.getLsbD_shiftLeft, BitVec.getLsbD_allOnes]
  by_cases hik : i < k
  · have hbit : (w.toNat % 2 ^ k).testBit i = w.getLsbD i := by
      rw [Nat.testBit_mod_two_pow, decide_eq_true hik, Bool.true_and, BitVec.getLsbD]
    simp [← hbit, h]
  · have hlt : i - k < 40 := by omega
    simp [hi, hik, hlt]

/-- R63, R46: every bit above NOP's opcode is padding. -/
theorem decodeWord_of_nop_padding {w : InstrWord} (hop : w.toNat % 16 = 0) (hw : w ≠ 0) :
    decodeWord true w = .error (.nonZeroPadding 0 w) := by
  have hnib : opcodeNibble w = 0 := BitVec.eq_of_toNat_eq ((opcodeNibble_toNat w).trans hop)
  have hpad : w &&& padMask (layout .nop) = w := and_high_eq_self (k := 4) hop
  have hdec := decodeWord_of_ofNibble true (w := w) (op := .nop) (by rw [hnib]; rfl)
  rwa [hpad, hnib, if_pos ⟨rfl, hw⟩] at hdec

end Sys2Proof

namespace Sys2Proof.Machine

/-! ## A commit and its frame -/

section Commit
variable (npc : Pc) (s : State)

/-- A commit alone (R59): NOP, JMP and JZ. -/
theorem commit_frame : ∃ t, commit npc s = .next t ∧ Completes s t npc ∧ KeepsRegs s t ∧ KeepsMemory s t ∧
    KeepsStreams s t :=
  ⟨_, rfl, ⟨rfl, rfl, rfl, rfl, rfl, rfl⟩, fun _ => rfl, fun _ => rfl, rfl, rfl⟩

/-- A commit after one register write: LDI, LOAD, NEQ, ADD and SUB. -/
theorem commit_writeReg_frame (d : RegIdx) (v : Word) : ∃ t, commit npc (writeReg d v s) = .next t ∧
    Completes s t npc ∧ SetsReg s t d v ∧ KeepsMemory s t ∧ KeepsStreams s t := by
  refine ⟨_, rfl, ?completes, setsReg_of_X fun _ => rfl, ?memory, ?streams⟩
  case completes => constructor <;> simp
  case memory => simp [KeepsMemory]
  case streams => simp [KeepsStreams]

/-- A commit after one cell write: STORE. -/
theorem commit_write_frame (a : Nat) (v : Word) : ∃ t, commit npc { s with mem := s.mem.write a v } = .next t ∧
    Completes s t npc ∧ KeepsRegs s t ∧ SetsCell s t a v ∧ KeepsStreams s t :=
  ⟨_, rfl, ⟨rfl, rfl, rfl, rfl, rfl, rfl⟩, fun _ => rfl,
    ⟨read_write_self s.mem a v, fun a' hne => read_write_other s.mem a a' v hne⟩, rfl, rfl⟩

end Commit

/-- Raising a fault is the precise entry to halted-fault (R60, R80). -/
theorem raise_takesFault (f : Fault) (s : State) : TakesFault s f (raise f s) := rfl

/-! ## The instructions, from their arms of the dispatch (40_engine.md R58) -/

section Exec
variable (s : State)

theorem exec_nop : exec .nop s = commit (nextPc s) s := rfl
theorem exec_ldi (imm : Imm) (c : RegIdx) : exec (.ldi imm c) s = commit (nextPc s) (writeReg c (zext32 imm) s) := rfl
theorem exec_load (b : RegIdx) (a : Addr) : exec (.load b a) s = execLoad b a s := rfl
theorem exec_store (a : Addr) (c : RegIdx) : exec (.store a c) s = execStore a c s := rfl

end Exec

/-- Zero extension keeps the constant's number (R11). -/
theorem zext32_eq_ofNat (imm : Imm) : zext32 imm = BitVec.ofNat 32 imm.toNat := (BitVec.ofNat_toNat 32 imm).symm

/-- Settles O6: LDI is one register write, and its two encode failures are the first and the second field. -/
theorem ldiLoadsConstant : Obligations.LdiLoadsConstant := by
  refine ⟨fun imm c => ⟨Laws.WordValue.ldi imm c, fun s => ?_⟩,
    fun cfg c => encode_ldi_of_const_out cfg c (.inr (by decide)),
    fun cfg b h0 hmax => encode_ldi_of_reg_out cfg ⟨h0, hmax⟩ (.inr (by decide))⟩
  rw [exec_ldi, zext32_eq_ofNat]
  exact commit_writeReg_frame (nextPc s) s c _

/-- Settles O7, by the two sides of the bounds check. -/
theorem loadReadsCellOrFaults : Obligations.LoadReadsCellOrFaults := by
  refine ⟨fun b a => ⟨Laws.WordValue.load b a, fun s => ⟨fun hin => ?_, fun hout => ?_⟩⟩,
    fun _ _ _ hc => encode_load_ne_ok hc⟩
  · rw [exec_load, execLoad_inRange hin]
    exact commit_writeReg_frame (nextPc s) s b _
  · rw [exec_load, execLoad_outOfRange hout]
    exact raise_takesFault _ s

/-- Settles O8, by the two sides of the bounds check. -/
theorem storeWritesCellOrFaults : Obligations.StoreWritesCellOrFaults := by
  refine fun a c => ⟨Laws.WordValue.store a c, fun s => ⟨fun hin => ?_, fun hout => ?_⟩⟩
  · rw [exec_store, execStore_inRange hin]
    exact commit_write_frame (nextPc s) s _ _
  · rw [exec_store, execStore_outOfRange hout]
    exact raise_takesFault _ s

/-- Settles O5: NOP is a commit alone, and its word leaves every higher bit as padding. -/
theorem nopOnlyAdvancesPc : Obligations.NopOnlyAdvancesPc := by
  refine ⟨BitVec.eq_of_toNat_eq Laws.WordValue.nop, fun _ => decodeWord_of_nop_padding, fun s => ?_⟩
  rw [exec_nop]
  exact commit_frame (nextPc s) s

end Sys2Proof.Machine
end

section
/-! PROOF. Compare and arithmetic (42_arith_compare.md R67 to R69): NEQ, ADD and SUB are one register write each, of
the word that the spec gives as an exact integer result modulo 2^32. -/

namespace Sys2Proof.Machine

/-! ## The written words -/

/-- R67: the result is 0 exactly on equal words. -/
theorem notEqualWord_eq (r m : Word) : notEqualWord r m = if r = m then 0 else 1 := ite_not ..

/-- R68: word addition is the exact sum modulo 2^32. -/
theorem ofNat_sum_mod (x y : Word) : BitVec.ofNat 32 ((x.toNat + y.toNat) % 2 ^ 32) = x + y := by
  apply BitVec.eq_of_toNat_eq
  rw [BitVec.toNat_ofNat, Nat.mod_mod, BitVec.toNat_add]

/-- Reducing an integer modulo 2^32 first does not change its word (R11). -/
theorem ofInt_emod (n : Int) : BitVec.ofInt 32 (n % 2 ^ 32) = BitVec.ofInt 32 n := by
  apply BitVec.eq_of_toInt_eq
  rw [BitVec.toInt_ofInt, BitVec.toInt_ofInt]
  exact Int.emod_bmod n (2 ^ 32)

/-- The word of a difference is the difference of the words. -/
theorem ofInt_sub (m n : Int) : BitVec.ofInt 32 (m - n) = BitVec.ofInt 32 m - BitVec.ofInt 32 n := by
  rw [Int.sub_eq_add_neg, BitVec.ofInt_add, BitVec.ofInt_neg, BitVec.sub_eq_add_neg]

/-- R69: word subtraction is the exact difference modulo 2^32. -/
theorem ofInt_difference_emod (x y : Word) : BitVec.ofInt 32 ((x.toNat - y.toNat : Int) % 2 ^ 32) = x - y := by
  rw [ofInt_emod, ofInt_sub]
  simp

/-! ## The instructions, from their arms of the dispatch (40_engine.md R58) -/

section Exec
variable (s : State)

theorem exec_neq (b : RegIdx) (a : Addr) : exec (.neq b a) s = execNeq b a s := rfl
theorem exec_add (b c : RegIdx) : exec (.add b c) s =
    commit (nextPc s) (writeReg b (readReg s b + readReg s c) s) := rfl
theorem exec_sub (b c : RegIdx) : exec (.sub b c) s =
    commit (nextPc s) (writeReg b (readReg s b - readReg s c) s) := rfl

end Exec

/-- Settles O9, by the two sides of the bounds check. -/
theorem neqComparesWithCellOrFaults : Obligations.NeqComparesWithCellOrFaults := by
  refine fun b a => ⟨Laws.WordValue.neq b a, fun s => ⟨fun hin => ?_, fun hout => ?_⟩⟩
  · rw [exec_neq, execNeq_inRange hin, notEqualWord_eq]
    exact commit_writeReg_frame (nextPc s) s b _
  · rw [exec_neq, execNeq_outOfRange hout]
    exact raise_takesFault _ s

/-- Settles O10: ADD writes the word sum, which is the exact sum reduced. -/
theorem addWrapsModulo : Obligations.AddWrapsModulo := by
  refine fun b c => ⟨Laws.WordValue.add b c, fun s => ?_⟩
  rw [exec_add, ofNat_sum_mod]
  exact commit_writeReg_frame (nextPc s) s b _

/-- Settles O11: SUB writes the word difference, which is the exact difference reduced. -/
theorem subWrapsModulo : Obligations.SubWrapsModulo := by
  refine fun b c => ⟨Laws.WordValue.sub b c, fun s => ?_⟩
  rw [exec_sub, ofInt_difference_emod]
  exact commit_writeReg_frame (nextPc s) s b _

end Sys2Proof.Machine
end

section
/-! PROOF. Control (43_control.md R71, R72): JMP and JZ are a commit alone, at the target or at the default advance. -/

namespace Sys2Proof

/-- R42 for JMP: its one field is the target. -/
theorem encode_jmp_of_target_out (cfg : Config) {b : Int} (hb : b < 0 ∨ 2147483647 < b) :
    encode cfg (.jmp b) = .error ⟨.B, .jmp, b, 2147483647⟩ :=
  (encode_eq_error_iff ..).mpr (firstViolation_cons_of_out _ hb)

end Sys2Proof

namespace Sys2Proof.Machine

/-- R37: a target is an absolute instruction index, neither scaled nor offset. -/
theorem targetPc_eq_ofNat (tgt : Target) : targetPc tgt = BitVec.ofNat 32 tgt.toNat :=
  (BitVec.ofNat_toNat 32 tgt).symm

/-- R72: the test of JZ is on the whole word. -/
theorem isZero_iff_toNat_eq_zero (w : Word) : isZero w = true ↔ w.toNat = 0 :=
  beq_iff_eq.trans BitVec.toNat_inj.symm

/-! ## The instructions, from their arms of the dispatch (40_engine.md R58) -/

section Exec
variable (s : State)

theorem exec_jmp (tgt : Target) : exec (.jmp tgt) s = commit (targetPc tgt) s := rfl
theorem exec_jz (b : RegIdx) (tgt : Target) : exec (.jz b tgt) s =
    commit (if isZero (readReg s b) then targetPc tgt else nextPc s) s := rfl

end Exec

/-- Settles O12: JMP is a commit at its target, and its encode failure is its one field. -/
theorem jmpSetsPcToTarget : Obligations.JmpSetsPcToTarget := by
  refine ⟨fun tgt => ⟨Laws.WordValue.jmp tgt, fun s => ?_⟩,
    fun cfg => encode_jmp_of_target_out cfg (.inr (by decide))⟩
  rw [exec_jmp, targetPc_eq_ofNat]
  exact commit_frame _ s

/-- Settles O13: JZ is a commit whose pc is chosen by the test of the register as it is read. -/
theorem jzBranchesOnZero : Obligations.JzBranchesOnZero := by
  refine fun b tgt => ⟨Laws.WordValue.jz b tgt, fun s => ?_⟩
  simp only [exec_jz, isZero_iff_toNat_eq_zero, targetPc_eq_ofNat]
  exact commit_frame _ s

end Sys2Proof.Machine
end

section
/-! PROOF. Input and output (44_io.md R74, R75): IN pops into a register, OUT appends to the log, and a run's log
stays within its step budget because each completed step appends at most one pair. -/

namespace Sys2Proof.Machine

/-! ## The instructions, from their arms of the dispatch (40_engine.md R58) -/

section Exec
variable (tag : Imm) (c : RegIdx) (s : State)

theorem exec_input : exec (.input tag c) s = commit (nextPc s) (writeReg c (inPop s).1 (inPop s).2) := rfl
theorem exec_output : exec (.output tag c) s = commit (nextPc s) (outAppend (readReg s c) tag s) := rfl

end Exec

/-! ## One input pop and one output -/

section Commit
variable (npc : Pc) (s : State)

/-- A commit after one register write and a pop (R22): the pop moves nothing but the cursor. -/
theorem commit_writeReg_inPop_frame (d : RegIdx) (v : Word) : ∃ t, commit npc (writeReg d v (inPop s).2) = .next t ∧
    Completes s t npc ∧ SetsReg s t d v ∧ KeepsMemory s t ∧ t.icur = (inPop s).2.icur ∧ t.outlog = s.outlog := by
  refine ⟨_, rfl, ?completes, setsReg_of_X fun r => ?register, ?memory, ?cursor, ?log⟩
  case completes => constructor <;> simp
  case register =>
    show (writeReg d v (inPop s).2).X r = (writeReg d v s).X r
    simp [X_writeReg, isHardwired]
  case memory => simp [KeepsMemory]
  case cursor => exact writeReg_icur d v _
  case log => exact (writeReg_outlog d v _).trans (inPop_outlog s)

/-- A commit after one append to the log (R23). -/
theorem commit_outAppend_frame (v : Word) (tag : Imm) : ∃ t, commit npc (outAppend v tag s) = .next t ∧
    Completes s t npc ∧ KeepsRegs s t ∧ KeepsMemory s t ∧ t.icur = s.icur ∧
    t.outlog = s.outlog ++ [⟨v.toInt, tag⟩] := by
  rw [← signed_eq_toInt]
  exact ⟨_, rfl, ⟨rfl, rfl, rfl, rfl, rfl, rfl⟩, fun _ => rfl, fun _ => rfl, rfl, rfl⟩

end Commit

/-- Settles O14, by the two answers of the pop; no arm of IN reads the tag. -/
theorem inputPopsIntoRegister : Obligations.InputPopsIntoRegister := by
  refine fun tag c => ⟨Laws.WordValue.input tag c, fun s => ?_⟩
  have hin := commit_writeReg_inPop_frame (nextPc s) s c (inPop s).1
  rw [← exec_input tag] at hin
  refine ⟨fun n hn => ?_, fun hend => ?_, fun _ => rfl⟩
  · obtain ⟨hlt, rfl⟩ := List.getElem?_eq_some_iff.mp hn
    rw [inPop_of_lt hlt] at hin
    rwa [ofInt_emod]
  · rwa [inPop_of_ge hend] at hin

/-! ## What one step appends -/

/-- An instruction appends at most one pair, and only OUT appends (R23). -/
theorem Effect.outlog_eq_or_append {s t : State} (h : Effect s t) :
    t.outlog = s.outlog ∨ ∃ e, t.outlog = s.outlog ++ [e] := by
  cases h with
  | outOfRange => exact .inl rfl
  | register => exact .inl (writeReg_outlog ..)
  | cell => exact .inl rfl
  | advance => exact .inl rfl
  | jump => exact .inl rfl
  | pop => exact .inl ((writeReg_outlog ..).trans (inPop_outlog s))
  | log => exact .inr ⟨_, rfl⟩

theorem step_outlog_eq_or_append {s t : State} (h : step s = .next t) :
    t.outlog = s.outlog ∨ ∃ e, t.outlog = s.outlog ++ [e] := by
  obtain ⟨st, rfl⟩ | he := step_status_or_effect h
  · exact .inl rfl
  · exact he.outlog_eq_or_append

/-! ## A run logs at most one pair a completed step -/

/-- The part of `StateInv` that bounds the log (R75). -/
def LogBounded (s : State) : Prop := s.outlog.length ≤ s.steps

theorem LogBounded.after_step {s t : State} (hs : LogBounded s) (h : step s = .next t) : LogBounded t := by
  obtain ⟨-, npc, hc⟩ | ⟨st, -, rfl⟩ := step_completes_or_ends h
  · have hlen : t.outlog.length ≤ s.outlog.length + 1 := by
      obtain hsame | ⟨e, happ⟩ := step_outlog_eq_or_append h
      · rw [hsame]; exact Nat.le_succ _
      · rw [happ, List.length_append]; exact Nat.le_refl _
    unfold LogBounded
    rw [hc.steps]
    exact hlen.trans (Nat.succ_le_succ hs)
  · exact hs

/-- What every step keeps, a run of any number of steps keeps. -/
theorem runSteps_induction {P : State → Prop} (hstep : ∀ {s t : State}, P s → step s = .next t → P t) (n : Nat) :
    ∀ {s : State}, P s → P (runSteps n s) := by
  induction n with
  | zero => exact fun hs => hs
  | succ n ih =>
    intro s hs
    rw [runSteps]
    split
    next t ht => exact ih (hstep hs ht)
    · exact hs
    · exact hs

theorem LogBounded.after_runToEnd {s : State} (hs : LogBounded s) : LogBounded (runToEnd s) :=
  runSteps_induction LogBounded.after_step _ hs

/-! ## What the presets leave alone -/

/-- A register preset changes the registers alone (R88). -/
theorem presetReg_frame (p : Presets) (i : RegIdx) (s : State) : ∃ regs, presetReg p i s = { s with regs := regs } := by
  unfold presetReg
  split
  · unfold writeReg
    split
    · exact ⟨s.regs, rfl⟩
    · exact ⟨_, rfl⟩
  · exact ⟨s.regs, rfl⟩

/-- The presets change the registers and the memory alone (R88). -/
theorem applyPresets_frame (p : Presets) (s : State) :
    ∃ regs mem, applyPresets p s = { s with regs := regs, mem := mem } := by
  have hfold : ∃ regs, allRegs.foldl (fun t i => presetReg p i t) s = { s with regs := regs } := by
    refine List.foldlRecOn (motive := fun t : State => ∃ regs, t = { s with regs := regs }) allRegs _ ⟨s.regs, rfl⟩
      fun t ht i _ => ?_
    obtain ⟨regs, rfl⟩ := ht
    exact presetReg_frame p i _
  obtain ⟨regs, hregs⟩ := hfold
  unfold applyPresets
  rw [hregs]
  exact ⟨_, _, rfl⟩

/-- A launched run has the parameters it is given, and has logged and completed nothing (R95). -/
theorem config_outlog_steps_of_launch {cfg : Config} {image : List Byte} {inq : List Int} {p : Presets} {s : State}
    (h : launch cfg image inq p = .next s) : s.config = cfg ∧ s.outlog = [] ∧ s.steps = 0 := by
  obtain ⟨-, -, -, rfl⟩ := launch_cases h
  obtain ⟨regs, mem, hpre⟩ := applyPresets_frame p (State.resetWith cfg image inq)
  rw [hpre]
  exact ⟨rfl, rfl, rfl⟩

/-- Settles O15: OUT is a commit after one append; a launched log is empty, and the steps that bound it end within
the budget. -/
theorem outputAppendsSignedValue : Obligations.OutputAppendsSignedValue := by
  refine ⟨fun tag c => ⟨Laws.WordValue.output tag c, fun s => ?_⟩, fun cfg image inq p s h => ?_⟩
  · rw [exec_output]
    exact commit_outAppend_frame (nextPc s) s _ tag
  · obtain ⟨rfl, hempty, hzero⟩ := config_outlog_steps_of_launch h
    have hlog : LogBounded s := by simp [LogBounded, hempty]
    obtain ⟨-, -, hsteps⟩ := runEndsWithinStepLimit.2 s (by simp [hzero])
    exact hlog.after_runToEnd.trans hsteps

end Sys2Proof.Machine
end

section
/-! PROOF. Decode faults and the memory dump (60_exceptions.md R78, R79, R91): a step whose word does not decode
enters halted-fault precisely, with the decoder's error as its record; and what the dump lists. -/

namespace Sys2Proof.Machine

/-! ## Faults raised by the step's decode -/

/-- A fetched word that does not decode is the record of a precise entry to halted-fault (R57, R80). -/
theorem step_takesFault_of_decodeWord_error {s : State} {w : InstrWord} {e : DecodeError} (hcan : CanStep s)
    (hw : FetchesWord s w) (he : decodeWord s.config.strictPadding w = .error e) :
    TakesFault s (decodeFault s.pc e) (step s) := by
  obtain ⟨hrunning, hbudget⟩ := hcan
  rw [step_eq hrunning hw.pc_lt hbudget, hw.fetchDecode_eq, he]
  exact raise_takesFault _ s

/-- Settles O23, from the decoder's first case. -/
theorem stepRaisesUnknownOpcode : Obligations.StepRaisesUnknownOpcode := by
  intro s w hcan hw hnibble
  obtain ⟨hunknown, -, -⟩ := decodeClassifiesEveryWord s.config.strictPadding w
  exact step_takesFault_of_decodeWord_error hcan hw (hunknown hnibble)

/-- Settles O24, from the decoder's second case. -/
theorem stepRaisesNonZeroPadding : Obligations.StepRaisesNonZeroPadding := by
  intro s w hcan hw hstrict hnibble hpad
  obtain ⟨-, hpadding, -⟩ := decodeClassifiesEveryWord s.config.strictPadding w
  exact step_takesFault_of_decodeWord_error hcan hw (hpadding hnibble hstrict hpad)

/-! ## The memory dump -/

/-- The addresses of a dump are those of the clipped range, in order (R91). -/
theorem map_fst_dump (s : State) (lo hi : Nat) :
    (dump s lo hi).map Prod.fst = List.range' lo (min hi s.config.memSize - lo) := by
  rw [dump, List.map_map, List.range'_eq_map_range]
  rfl

/-- An entry of a dump holds the two's-complement value of its cell (R91, R11). -/
theorem snd_of_mem_dump {s : State} {lo hi : Nat} {c : Nat × Int} (hc : c ∈ dump s lo hi) :
    c.2 = (s.mem.read c.1).toInt := by
  obtain ⟨k, -, rfl⟩ := List.mem_map.mp hc
  exact signed_eq_toInt _

/-- Settles O46: the addresses of the list, and then the value of each entry. -/
theorem dumpListsClippedRange : Obligations.DumpListsClippedRange :=
  fun s lo hi => ⟨map_fst_dump s lo hi, fun _ => snd_of_mem_dump⟩

end Sys2Proof.Machine
end

section
/-! PROOF. Program load (40_engine.md R54, 70_reset_and_hazards.md R95): which launches start a run, and the state
that a launch without presets starts from. -/

namespace Sys2Proof.Machine

/-! ## No presets -/

@[simp] theorem illegalPreset_none (cfg : Config) : illegalPreset cfg Presets.none = none := rfl

@[simp] theorem presetReg_none (i : RegIdx) (s : State) : presetReg Presets.none i s = s := by
  have hi : Presets.none.regs[i.toNat]'i.isLt = none := Vector.getElem_replicate i.isLt
  rw [presetReg, hi]

@[simp] theorem applyPresets_none (s : State) : applyPresets Presets.none s = s := by
  have hregs : allRegs.foldl (fun t i => presetReg Presets.none i t) s = s :=
    List.foldl_fixed' (fun i => presetReg_none i s) allRegs
  rw [applyPresets, hregs]
  rfl

/-! ## A launch that starts a run -/

/-- The converse of `launch_cases`: the checks of R54 and R88 are all that can stop a launch. -/
theorem launch_of_legal {cfg : Config} {image : List Byte} {p : Presets} (inq : List Int)
    (hlen : image.length % wordBytes = 0) (hmax : image.length / wordBytes ≤ maxProgramWords)
    (hpre : illegalPreset cfg p = none) :
    launch cfg image inq p = .next (applyPresets p (State.resetWith cfg image inq)) := by
  rw [launch, if_neg (not_not.mpr hlen), if_neg (Nat.not_lt.mpr hmax), hpre]

/-- Without presets a legal image starts in the reset state itself (R95). -/
theorem launch_none {cfg : Config} {image : List Byte} (inq : List Int) (hlen : image.length % wordBytes = 0)
    (hmax : image.length / wordBytes ≤ maxProgramWords) :
    launch cfg image inq Presets.none = .next (State.resetWith cfg image inq) := by
  rw [launch_of_legal inq hlen hmax (illegalPreset_none cfg), applyPresets_none]

/-- Settles O1: the launched state is the reset state, each of whose components is read off. -/
theorem launchCreatesResetState : Obligations.LaunchCreatesResetState := by
  intro cfg image inq hlen hmax
  refine ⟨State.resetWith cfg image inq, launch_none inq hlen hmax, resetWith_X cfg image inq, ?_⟩
  simp

end Sys2Proof.Machine
end

section
/-! PROOF. Instructions and the components of the state (10_state.md R16 to R24): which instruction has which effect,
what no instruction observes, and that a cell keeps its value until the next STORE to it (20_memory.md R30). -/

namespace Sys2Proof.Machine

/-! ## The effect of each instruction -/

/-- The effects of `Effect`, each with the instructions that have it: what changes a component names its instruction. -/
inductive EffectOf (s : State) : Instr → State → Prop where
  | fault (i : Instr) (f : Fault) : EffectOf s i { s with status := .haltedFault f }
  | register {i : Instr} {d : RegIdx} (hd : destination i = some d) (v : Word) :
      EffectOf s i { writeReg d v s with pc := s.pc + 1, steps := s.steps + 1 }
  | store (a : Addr) (c : RegIdx) : EffectOf s (.store a c)
      { s with mem := s.mem.write (cellAddress a) (readReg s c), pc := s.pc + 1, steps := s.steps + 1 }
  | advance (i : Instr) : EffectOf s i { s with pc := s.pc + 1, steps := s.steps + 1 }
  | jmp (t : Target) : EffectOf s (.jmp t) { s with pc := targetPc t, steps := s.steps + 1 }
  | jz (b : RegIdx) (t : Target) : EffectOf s (.jz b t) { s with pc := targetPc t, steps := s.steps + 1 }
  | input (tag : Imm) (c : RegIdx) : EffectOf s (.input tag c)
      { writeReg c (inPop s).1 (inPop s).2 with pc := s.pc + 1, steps := s.steps + 1 }
  | output (tag : Imm) (c : RegIdx) : EffectOf s (.output tag c)
      { outAppend (readReg s c) tag s with pc := s.pc + 1, steps := s.steps + 1 }

/-- A commit of one register write at the default advance is the effect of any instruction with that destination. -/
theorem effectOf_commit_writeReg {i : Instr} {s t : State} {d : RegIdx} {v : Word} (hd : destination i = some d)
    (h : commit (nextPc s) (writeReg d v s) = .next t) : EffectOf s i t := by
  simp only [commit, nextPc, writeReg_steps] at h
  cases h
  exact .register hd v

theorem effectOf_of_exec {i : Instr} {s t : State} (h : exec i s = .next t) : EffectOf s i t := by
  cases i with
  | nop => cases h; exact .advance _
  | ldi imm c => exact effectOf_commit_writeReg rfl h
  | load b a =>
    rw [exec_load] at h
    rcases Nat.lt_or_ge (cellAddress a) s.config.memSize with hin | hout
    · rw [execLoad_inRange hin] at h; exact effectOf_commit_writeReg rfl h
    · rw [execLoad_outOfRange hout] at h; cases h; exact .fault _ _
  | store a c =>
    rw [exec_store] at h
    rcases Nat.lt_or_ge (cellAddress a) s.config.memSize with hin | hout
    · rw [execStore_inRange hin] at h; cases h; exact .store a c
    · rw [execStore_outOfRange hout] at h; cases h; exact .fault _ _
  | neq b a =>
    rw [exec_neq] at h
    rcases Nat.lt_or_ge (cellAddress a) s.config.memSize with hin | hout
    · rw [execNeq_inRange hin] at h; exact effectOf_commit_writeReg rfl h
    · rw [execNeq_outOfRange hout] at h; cases h; exact .fault _ _
  | add b c => exact effectOf_commit_writeReg rfl h
  | sub b c => exact effectOf_commit_writeReg rfl h
  | jmp t => cases h; exact .jmp t
  | jz b t =>
    rw [exec_jz] at h
    split at h
    · cases h; exact .jz b t
    · cases h; exact .advance _
  | input tag c =>
    simp only [exec_input, commit, nextPc, writeReg_steps, inPop_steps] at h
    cases h
    exact .input tag c
  | output tag c => cases h; exact .output tag c

/-! ## Each component and its writers -/

section Writers
variable {i : Instr} {s t : State}

/-- Memory is written by STORE alone, in the one cell that it names (R20). -/
theorem EffectOf.mem_eq_or_store (h : EffectOf s i t) :
    t.mem = s.mem ∨ ∃ a c, i = .store a c ∧ t.mem = s.mem.write (cellAddress a) (readReg s c) := by
  cases h with
  | store a c => exact .inr ⟨a, c, rfl, rfl⟩
  | register => exact .inl (writeReg_mem ..)
  | input => exact .inl ((writeReg_mem ..).trans (inPop_mem s))
  | fault | advance | jmp | jz | output => exact .inl rfl

/-- The input cursor is moved by IN alone (R22). -/
theorem EffectOf.icur_eq_or_input (h : EffectOf s i t) : t.icur = s.icur ∨ ∃ tag c, i = .input tag c := by
  cases h with
  | input tag c => exact .inr ⟨tag, c, rfl⟩
  | register => exact .inl (writeReg_icur ..)
  | fault | store | advance | jmp | jz | output => exact .inl rfl

/-- The output log is written by OUT alone (R23). -/
theorem EffectOf.outlog_eq_or_output (h : EffectOf s i t) : t.outlog = s.outlog ∨ ∃ tag c, i = .output tag c := by
  cases h with
  | output tag c => exact .inr ⟨tag, c, rfl⟩
  | register => exact .inl (writeReg_outlog ..)
  | input => exact .inl ((writeReg_outlog ..).trans (inPop_outlog s))
  | fault | store | advance | jmp | jz => exact .inl rfl

/-- A register is written only as the destination of the instruction (R16). -/
theorem EffectOf.X_eq_or_destination (h : EffectOf s i t) (r : RegIdx) : t.X r = s.X r ∨ destination i = some r := by
  by_cases hr : t.X r = s.X r
  · exact .inl hr
  · cases h with
    | register hd v => rw [eq_of_X_writeReg_ne (s := s) hr]; exact .inr hd
    | input tag c =>
      rw [← inPop_X s r] at hr
      rw [eq_of_X_writeReg_ne (s := (inPop s).2) hr]
      exact .inr rfl
    | fault | store | advance | jmp | jz | output => exact absurd rfl hr

/-- Only a fault, JMP and JZ set a pc other than the default advance (R58). -/
theorem EffectOf.pc_cases (h : EffectOf s i t) : t.pc = s.pc + 1 ∨
    (t.pc = s.pc ∧ ∃ f, t.status = .haltedFault f) ∨ (∃ tgt, i = .jmp tgt) ∨ ∃ b tgt, i = .jz b tgt := by
  cases h with
  | fault => exact .inr (.inl ⟨rfl, _, rfl⟩)
  | jmp tgt => exact .inr (.inr (.inl ⟨tgt, rfl⟩))
  | jz b tgt => exact .inr (.inr (.inr ⟨b, tgt, rfl⟩))
  | register | store | advance | input | output => exact .inl rfl

end Writers

/-- Settles O18: each clause is one component's lemma, read against its change. -/
theorem eachComponentHasItsWriters : Obligations.EachComponentHasItsWriters := by
  intro i s t h
  have he := effectOf_of_exec h
  refine ⟨fun ⟨a, ha⟩ => ?memory, he.icur_eq_or_input.resolve_left, he.outlog_eq_or_output.resolve_left,
    fun r => (he.X_eq_or_destination r).resolve_left, he.pc_cases.resolve_left⟩
  case memory =>
    obtain hmem | ⟨a, c, hi, -⟩ := he.mem_eq_or_store
    · exact absurd (congrArg (·.read a) hmem) ha
    · exact ⟨a, c, hi⟩

/-! ## A cell between two stores to it -/

/-- An instruction keeps every cell that it does not store to. -/
theorem read_of_exec {i : Instr} {s t : State} {a : Addr} (h : exec i s = .next t)
    (hi : ∀ a' c', i = .store a' c' → a' ≠ a) : t.mem.read a.toNat = s.mem.read a.toNat := by
  obtain hmem | ⟨a', c', rfl, hmem⟩ := (effectOf_of_exec h).mem_eq_or_store
  · rw [hmem]
  · have hne : a.toNat ≠ cellAddress a' := fun he => hi a' c' rfl (BitVec.eq_of_toNat_eq he.symm)
    rw [hmem, read_write_other _ _ _ _ hne]

theorem config_of_exec {i : Instr} {s t : State} (h : exec i s = .next t) : t.config = s.config := by
  obtain ⟨npc, hc⟩ | ⟨st, -, rfl⟩ := (effect_of_exec h).completes_or_ends
  · exact hc.config
  · rfl

/-- Along instructions that hold no STORE to a cell, the cell keeps its value (R30). -/
theorem ExecTrace.keeps_cell {s t : State} {is : List Instr} {a : Addr} (h : ExecTrace s is t)
    (hno : ∀ a' c', Instr.store a' c' ∈ is → a' ≠ a) :
    t.config = s.config ∧ t.mem.read a.toNat = s.mem.read a.toNat := by
  induction h with
  | done s => exact ⟨rfl, rfl⟩
  | more hexec _ ih =>
    obtain ⟨hcfg, hcell⟩ := ih fun a' c' hm => hno a' c' (List.mem_cons_of_mem _ hm)
    have hfirst := read_of_exec hexec fun a' c' hi => hno a' c' (hi ▸ List.mem_cons_self)
    exact ⟨hcfg.trans (config_of_exec hexec), hcell.trans hfirst⟩

/-- Settles O19: the STORE sets the cell, the trace keeps it by induction, and LOAD and NEQ read it. -/
theorem readsSeeMostRecentStore : Obligations.ReadsSeeMostRecentStore := by
  intro s t u a c b is ha hstore htrace hno
  obtain ⟨_, hexec, hc, -, ⟨hset, -⟩, -⟩ := ((storeWritesCellOrFaults a c).2 s).1 ha
  cases hstore.symm.trans hexec
  obtain ⟨hcfg, hcell⟩ := htrace.keeps_cell hno
  have hin : a.toNat < u.config.memSize := by rwa [hcfg, hc.config]
  obtain ⟨v, hv, -, hload, -⟩ := ((loadReadsCellOrFaults.1 b a).2 u).1 hin
  obtain ⟨w, hw, -, hneq, -⟩ := ((neqComparesWithCellOrFaults b a).2 u).1 hin
  rw [hcell, hset] at hload hneq
  exact ⟨⟨v, hv, hload⟩, w, hw, hneq⟩

/-! ## Signed operands of ADD and SUB -/

theorem ofInt_signed (w : Word) : BitVec.ofInt 32 (signed w) = w := by
  rw [signed_eq_toInt, BitVec.ofInt_toInt]

/-- Settles O16: the word of a signed sum or difference is the sum or difference of the words. -/
theorem addSubAgreeWithSignedReading : Obligations.AddSubAgreeWithSignedReading := by
  refine fun b c s => ⟨?add, ?sub⟩
  case add =>
    obtain ⟨t, ht, -, hset, -⟩ := commit_writeReg_frame (nextPc s) s b (readReg s b + readReg s c)
    refine ⟨t, ht, ?_⟩
    rwa [BitVec.ofInt_add, ofInt_signed, ofInt_signed]
  case sub =>
    obtain ⟨t, ht, -, hset, -⟩ := commit_writeReg_frame (nextPc s) s b (readReg s b - readReg s c)
    refine ⟨t, ht, ?_⟩
    rwa [ofInt_sub, ofInt_signed, ofInt_signed]

/-! ## The step counter and the output log are not observed -/

/-- A state with another step counter and another output log. -/
def State.withStepsLog (s : State) (n : Nat) (l : List OutEntry) : State := { s with steps := n, outlog := l }

theorem isHardwired_withStepsLog (s : State) (n : Nat) (l : List OutEntry) (d : RegIdx) :
    isHardwired (s.withStepsLog n l) d = isHardwired s d := rfl

theorem memRead_withStepsLog (s : State) (n : Nat) (l : List OutEntry) (a : Nat) :
    memRead (s.withStepsLog n l) a = memRead s a := rfl

theorem writeReg_withStepsLog (d : RegIdx) (v : Word) (s : State) (n : Nat) (l : List OutEntry) :
    writeReg d v (s.withStepsLog n l) = (writeReg d v s).withStepsLog n l := by
  rw [writeReg, writeReg, isHardwired_withStepsLog]
  split <;> rfl

theorem inPop_withStepsLog (s : State) (n : Nat) (l : List OutEntry) :
    inPop (s.withStepsLog n l) = ((inPop s).1, (inPop s).2.withStepsLog n l) := by
  rcases Nat.lt_or_ge s.icur s.inq.length with h | h
  · rw [inPop_of_lt h, inPop_of_lt (s := s.withStepsLog n l) h]; rfl
  · rw [inPop_of_ge h, inPop_of_ge (s := s.withStepsLog n l) h]

/-- Two answers are next states that differ in the step counter and the output log alone. -/
def SameBesidesStepsLog (o o' : Host.Outcome State Fault Refusal) : Prop :=
  ∃ t n l, o = .next t ∧ o' = .next (t.withStepsLog n l)

theorem raise_withStepsLog (f : Fault) (s : State) (n : Nat) (l : List OutEntry) :
    SameBesidesStepsLog (raise f s) (raise f (s.withStepsLog n l)) := ⟨_, _, _, rfl, rfl⟩

theorem commit_withStepsLog (npc : Pc) (s : State) (n : Nat) (l : List OutEntry) :
    SameBesidesStepsLog (commit npc s) (commit npc (s.withStepsLog n l)) := ⟨_, _, _, rfl, rfl⟩

theorem commit_writeReg_withStepsLog (npc : Pc) (d : RegIdx) (v : Word) (s : State) (n : Nat) (l : List OutEntry) :
    SameBesidesStepsLog (commit npc (writeReg d v s)) (commit npc (writeReg d v (s.withStepsLog n l))) := by
  rw [writeReg_withStepsLog]
  exact commit_withStepsLog ..

/-- No arm of the dispatch reads the step counter or the output log (R23, R24). -/
theorem exec_withStepsLog (i : Instr) (s : State) (n : Nat) (l : List OutEntry) :
    SameBesidesStepsLog (exec i s) (exec i (s.withStepsLog n l)) := by
  cases i with
  | nop => exact commit_withStepsLog ..
  | ldi | add | sub => exact commit_writeReg_withStepsLog ..
  | load b a =>
    rw [exec_load, exec_load, execLoad, execLoad, memRead_withStepsLog]
    cases memRead s (cellAddress a) with
    | error f => exact raise_withStepsLog ..
    | ok v => exact commit_writeReg_withStepsLog ..
  | store a c =>
    rcases Nat.lt_or_ge (cellAddress a) s.config.memSize with h | h
    · rw [exec_store, exec_store, execStore_inRange h, execStore_inRange (s := s.withStepsLog n l) h]
      exact ⟨_, _, _, rfl, rfl⟩
    · rw [exec_store, exec_store, execStore_outOfRange h, execStore_outOfRange (s := s.withStepsLog n l) h]
      exact raise_withStepsLog ..
  | neq b a =>
    rw [exec_neq, exec_neq, execNeq, execNeq, memRead_withStepsLog]
    cases memRead s (cellAddress a) with
    | error f => exact raise_withStepsLog ..
    | ok v => exact commit_writeReg_withStepsLog ..
  | jmp | jz => exact commit_withStepsLog ..
  | input tag c =>
    rw [exec_input, exec_input, inPop_withStepsLog]
    exact commit_writeReg_withStepsLog ..
  | output => exact ⟨_, _, _, rfl, rfl⟩

/-- Settles O20, from the two runs of one instruction. -/
theorem instructionsCannotObserveStepsOrLog : Obligations.InstructionsCannotObserveStepsOrLog := by
  intro i s n l
  obtain ⟨t, m, k, ht, ht'⟩ := exec_withStepsLog i s n l
  exact ⟨t, _, ht, ht', fun _ => rfl, rfl, fun _ => rfl, rfl, rfl⟩

end Sys2Proof.Machine
end

section
/-! PROOF. Words, images and presets at launch (30_encoding.md R47, R50; 40_engine.md R54, R56; 60_exceptions.md R88):
every instruction's word is read back, an encoded image is fetched record by record, and what the presets write. -/

namespace Sys2Proof

open Machine

/-! ## An instruction's word in image bytes -/

/-- Settles O41, from the decoder on the word itself and the byte order. -/
theorem decodeReadsEveryInstructionWord : Obligations.DecodeReadsEveryInstructionWord := by
  intro strict i
  rw [decode, wordOfBytes_bytesOfWord, decodeWord_word]

/-- Settles O44: the spec's bytes are those of the instructions' words. -/
theorem decodesSpecExampleWords : Obligations.DecodesSpecExampleWords :=
  ⟨decodeReadsEveryInstructionWord true (.load 4 5), decodeReadsEveryInstructionWord true (.store 5 3),
    decodeReadsEveryInstructionWord true (.add 2 1), decodeReadsEveryInstructionWord true (.jz 1 3),
    decodeReadsEveryInstructionWord true (.output 67108863 5)⟩

/-! ## The image of a list of words -/

/-- An image of well-formed records is the image of their packed words (R50). -/
theorem encodeImage_eq_imageOfWords {cfg : Config} {rs : List Record} (h : ∀ r ∈ rs, r.wellFormed cfg = true) :
    encodeImage cfg rs = .ok (imageOfWords (rs.map pack)) := by
  induction rs with
  | nil => rfl
  | cons r rs ih =>
    obtain ⟨hr, hrs⟩ := List.forall_mem_cons.mp h
    rw [encodeImage, (encode_eq_ok_iff_wellFormed cfg r _).mpr ⟨hr, rfl⟩, ih hrs]
    rfl

@[simp] theorem imageOfWords_length (ws : List InstrWord) : (imageOfWords ws).length = 5 * ws.length := by
  induction ws with
  | nil => rfl
  | cons w ws ih =>
    rw [imageOfWords, List.length_append, bytesOfWord_length, ih, List.length_cons]
    omega

theorem bytesOfWord_toList_getElem? (w : InstrWord) {j : Nat} (hj : j < 5) :
    (bytesOfWord w).toList[j]? = some (w.extractLsb' (8 * j) 8) := by
  rw [List.getElem?_eq_getElem (by rwa [bytesOfWord_length]), Vector.getElem_toList, bytesOfWord_getElem w j hj]

/-- Word k of an image stands in its bytes 5k to 5k + 4 (R50). -/
theorem imageOfWords_getElem? {ws : List InstrWord} {k : Nat} {w : InstrWord} (hw : ws[k]? = some w) {j : Nat}
    (hj : j < 5) : (imageOfWords ws)[5 * k + j]? = some (w.extractLsb' (8 * j) 8) := by
  induction ws generalizing k with
  | nil => cases hw
  | cons w' ws ih =>
    rw [imageOfWords]
    cases k with
    | zero =>
      obtain rfl : w' = w := Option.some.inj hw
      rw [Nat.mul_zero, Nat.zero_add, List.getElem?_append_left (by rwa [bytesOfWord_length]),
        bytesOfWord_toList_getElem? w' hj]
    | succ k =>
      rw [List.getElem?_append_right (by rw [bytesOfWord_length]; omega), bytesOfWord_length, ← ih hw]
      congr 1
      omega

end Sys2Proof

namespace Sys2Proof.Machine

/-! ## What a launch keeps of its inputs, and what its presets write -/

/-- The memory after a list of (cell address, word) writes, the first one first (log 7). -/
def Memory.writeAll (m : Memory) (l : List (Nat × Word)) : Memory := l.foldl (fun m c => m.write c.1 c.2) m

/-- The presets write the memory presets, one after another (R88). -/
theorem applyPresets_mem (p : Presets) (s : State) : (applyPresets p s).mem = s.mem.writeAll p.mem := by
  have hregs : (allRegs.foldl (fun t i => presetReg p i t) s).mem = s.mem := by
    refine List.foldlRecOn (motive := fun t : State => t.mem = s.mem) allRegs _ rfl fun t ht i _ => ?_
    obtain ⟨regs, h⟩ := presetReg_frame p i t
    rw [h, ← ht]
  rw [applyPresets, hregs]
  rfl

/-- A launched state is the reset state but for its registers and its memory, which the presets give (R95, R88). -/
theorem launched_frame {cfg : Config} {image : List Byte} {inq : List Int} {p : Presets} {s : State}
    (h : launch cfg image inq p = .next s) :
    ∃ regs, s = { State.resetWith cfg image inq with regs := regs, mem := Memory.writeAll ⟨[]⟩ p.mem } := by
  obtain ⟨-, -, -, rfl⟩ := launch_cases h
  have hmem := applyPresets_mem p (State.resetWith cfg image inq)
  obtain ⟨regs, mem, hpre⟩ := applyPresets_frame p (State.resetWith cfg image inq)
  rw [hpre] at hmem ⊢
  obtain rfl : mem = _ := hmem
  exact ⟨regs, rfl⟩

theorem prog_of_launch {cfg : Config} {image : List Byte} {inq : List Int} {p : Presets} {s : State}
    (h : launch cfg image inq p = .next s) : s.prog = image := by
  obtain ⟨regs, rfl⟩ := launched_frame h
  rfl

/-- Settles O45: the image is that of the packed records, whose index k a launched program's bound keeps below the
wrap of pc. -/
theorem encodedImageFetchesItsRecords : Obligations.EncodedImageFetchesItsRecords := by
  intro cfg rs hwf
  refine ⟨imageOfWords (rs.map pack), encodeImage_eq_imageOfWords hwf, by simp, ?_⟩
  intro inq p s hlaunch k r hk
  obtain ⟨-, hmax, -, -⟩ := launch_cases hlaunch
  have hr : r.wellFormed cfg = true := hwf r (List.mem_of_getElem? hk)
  obtain ⟨i, rfl⟩ := exists_toRecord hr
  have hpc : (BitVec.ofNat 32 k : Pc).toNat = k := by
    have hlt : k < rs.length := (List.getElem?_eq_some_iff.mp hk).1
    rw [imageOfWords_length, List.length_map, wordBytes, maxProgramWords] at hmax
    rw [BitVec.toNat_ofNat, Nat.mod_eq_of_lt (by omega)]
  have hword : FetchesWord { s with pc := BitVec.ofNat 32 k } i.word := by
    intro j hj
    have hw : (rs.map pack)[k]? = some i.word := by rw [List.getElem?_map, hk]; rfl
    show s.prog[5 * (BitVec.ofNat 32 k : Pc).toNat + j]? = _
    rw [hpc, prog_of_launch hlaunch, imageOfWords_getElem? hw hj]
  exact ⟨i.word, i, encode_toRecord hr, hword, by rw [hword.fetchDecode_eq, decodeWord_word], rfl⟩

/-! ## Which memory preset stops a launch -/

/-- Presets within the memory stop no launch (R88). -/
theorem illegalPreset_eq_none_iff (cfg : Config) (p : Presets) :
    illegalPreset cfg p = none ↔ ∀ c ∈ p.mem, c.1 < cfg.memSize := by
  simp [illegalPreset]

/-- A preset beyond the memory is found, and the address named is that of such a preset (R88). -/
theorem illegalPreset_of_exists {cfg : Config} {p : Presets} (h : ∃ c ∈ p.mem, cfg.memSize ≤ c.1) :
    ∃ c ∈ p.mem, cfg.memSize ≤ c.1 ∧ illegalPreset cfg p = some c.1 := by
  cases hfind : p.mem.find? (fun c => decide (cfg.memSize ≤ c.1)) with
  | none =>
    obtain ⟨c, hc, hle⟩ := h
    exact absurd (decide_eq_true hle) (List.find?_eq_none.mp hfind c hc)
  | some c =>
    refine ⟨c, List.mem_of_find?_eq_some hfind, ?_, by rw [illegalPreset, hfind]; rfl⟩
    exact of_decide_eq_true (List.find?_some (p := fun c : Nat × Word => decide (cfg.memSize ≤ c.1)) hfind)

/-- Settles O3, by the checks of a launch in their order. -/
theorem launchStopsOnIllegalInput : Obligations.LaunchStopsOnIllegalInput := by
  refine fun cfg image inq p => ⟨fun hlen => if_pos hlen, fun hlen hbig => ?large, fun hlen hmax hbad => ?preset⟩
  case large => exact (if_neg (not_not.mpr hlen)).trans (if_pos hbig)
  case preset =>
    obtain ⟨c, hc, hle, hill⟩ := illegalPreset_of_exists hbad
    refine ⟨c, hc, hle, ?_⟩
    refine (if_neg (not_not.mpr hlen)).trans ((if_neg (Nat.not_lt.mpr hmax)).trans ?_)
    rw [hill]

/-- Settles O2: without presets the launched state is the reset state. -/
theorem resetIsLaunchOfEmptyImage : Obligations.ResetIsLaunchOfEmptyImage :=
  launch_none [] rfl (Nat.zero_le _)

/-! ## The registers after the presets -/

/-- One register preset (R88, R18). -/
theorem X_presetReg (p : Presets) (i j : RegIdx) (s : State) : (presetReg p i s).X j =
    if j = i ∧ isHardwired s j = false then (p.regs[j.toNat]'j.isLt).getD (s.X j) else s.X j := by
  unfold presetReg
  split
  next v hv =>
    rw [X_writeReg]
    by_cases hji : j = i
    · subst hji; rw [hv, Option.getD_some]
    · simp [hji]
  next hv =>
    by_cases hji : j = i
    · subst hji; rw [hv, Option.getD_none, ite_self]
    · simp [hji]

theorem isHardwired_presetReg (p : Presets) (i j : RegIdx) (s : State) :
    isHardwired (presetReg p i s) j = isHardwired s j := by
  obtain ⟨regs, h⟩ := presetReg_frame p i s
  rw [h]
  rfl

/-- A list of register presets: every register of the list has its preset, if it has one and is not hard-wired. -/
theorem X_foldl_presetReg (p : Presets) (j : RegIdx) (l : List RegIdx) (s : State) :
    (l.foldl (fun t i => presetReg p i t) s).X j =
      if j ∈ l ∧ isHardwired s j = false then (p.regs[j.toNat]'j.isLt).getD (s.X j) else s.X j := by
  induction l generalizing s with
  | nil => simp
  | cons i l ih =>
    rw [List.foldl_cons, ih, isHardwired_presetReg, X_presetReg]
    cases isHardwired s j with
    | true => simp
    | false =>
      by_cases hi : j = i
      · cases p.regs[j.toNat]'j.isLt <;> simp [hi]
      · simp [hi]

theorem mem_allRegs (i : RegIdx) : i ∈ allRegs := by
  revert i; decide

/-- Every register holds its preset or what it held, and a hard-wired R0 keeps what it held (R88, R18). -/
theorem X_applyPresets (p : Presets) (i : RegIdx) (s : State) : (applyPresets p s).X i =
    if s.config.r0Hardwired = true ∧ i = 0 then s.X i else (p.regs[i.toNat]'i.isLt).getD (s.X i) := by
  show (allRegs.foldl (fun t i => presetReg p i t) s).X i = _
  simp only [X_foldl_presetReg, ← isHardwired_iff]
  cases isHardwired s i <;> simp [mem_allRegs]

/-! ## The memory after the presets -/

/-- A cell that no write of the list names is left alone. -/
theorem read_writeAll_of_not_mem {l : List (Nat × Word)} {a : Nat} (h : ∀ c ∈ l, c.1 ≠ a) (m : Memory) :
    (m.writeAll l).read a = m.read a := by
  refine List.foldlRecOn (motive := fun m' : Memory => m'.read a = m.read a) l _ rfl fun m' hm' c hc => ?_
  rw [read_write_other _ _ _ _ (h c hc).symm, hm']

/-- The last write of a cell stands (log 7). -/
theorem read_writeAll_last {pre post : List (Nat × Word)} {a : Nat} (v : Word) (h : ∀ c ∈ post, c.1 ≠ a) (m : Memory) :
    (m.writeAll (pre ++ (a, v) :: post)).read a = v := by
  have hsplit : m.writeAll (pre ++ (a, v) :: post) = ((m.writeAll pre).write a v).writeAll post := by
    simp [Memory.writeAll]
  rw [hsplit, read_writeAll_of_not_mem h, read_write_self]

/-- Settles O4: the registers and the cells by their presets, the rest as reset. -/
theorem launchAppliesPresets : Obligations.LaunchAppliesPresets := by
  intro cfg image inq p hlen hmax hpre
  have hlaunch := launch_of_legal inq hlen hmax ((illegalPreset_eq_none_iff cfg p).mpr hpre)
  have hmem := applyPresets_mem p (State.resetWith cfg image inq)
  refine ⟨_, hlaunch, fun i => ?regs, fun pre a v post hl hpost => ?last, fun a ha => ?unset, ?rest⟩
  case regs => simp [X_applyPresets]
  case last => rw [hmem, hl, read_writeAll_last v hpost]
  case unset => rw [hmem, read_writeAll_of_not_mem ha, resetWith_mem, read_empty]
  case rest =>
    obtain ⟨regs, hs⟩ := launched_frame hlaunch
    rw [hs]
    exact ⟨rfl, rfl, rfl, rfl, rfl, rfl, rfl, rfl⟩

end Sys2Proof.Machine
end

section
/-! PROOF. The invariant `StateInv` (10_state.md R18 to R24, 20_memory.md R20): every launch establishes it and every
step keeps it. -/

namespace Sys2Proof.Machine

/-! ## Memory: canonical and within MEM_SIZE -/

/-- The memory is in canonical form, and lists only cells below a bound (R20; log 6). -/
structure Memory.WfBelow (m : Memory) (bound : Nat) : Prop where
  canonical : m.wf
  bounded : ∀ c ∈ m.cells, c.1 < bound

theorem Memory.wfBelow_empty (bound : Nat) : (⟨[]⟩ : Memory).WfBelow bound := ⟨wf_empty, by simp⟩

theorem Memory.WfBelow.write {m : Memory} {bound a : Nat} (h : m.WfBelow bound) (ha : a < bound) (v : Word) :
    (m.write a v).WfBelow bound where
  canonical := write_keeps_wf m a v h.canonical
  bounded c hc := by
    obtain ⟨rfl, -⟩ | hold := mem_write_cells m a v c hc
    · exact ha
    · exact h.bounded c hold

theorem Memory.WfBelow.writeAll {m : Memory} {bound : Nat} {l : List (Nat × Word)} (h : m.WfBelow bound)
    (hl : ∀ c ∈ l, c.1 < bound) : (m.writeAll l).WfBelow bound :=
  List.foldlRecOn (motive := (Memory.WfBelow · bound)) l _ h fun _ hm c hc => hm.write (hl c hc) c.2

/-! ## What one instruction does to each bounded component -/

section Effect
variable {s t : State}

theorem Effect.wfBelow (h : Effect s t) (hm : s.mem.WfBelow s.config.memSize) : t.mem.WfBelow s.config.memSize := by
  cases h with
  | cell a v ha => exact hm.write ha v
  | register => rwa [writeReg_mem]
  | pop => rwa [writeReg_mem, inPop_mem]
  | outOfRange | advance | jump | log => exact hm

/-- The default advance is by one, and a target is below 2^31 (R19, R37). -/
theorem Effect.pc_le (h : Effect s t) (hpc : s.pc.toNat < 2 ^ 31) : t.pc.toNat ≤ 2 ^ 31 := by
  have hnext : (s.pc + 1).toNat ≤ 2 ^ 31 := by
    rw [BitVec.toNat_add]
    exact (Nat.mod_le ..).trans hpc
  cases h with
  | outOfRange => exact hpc.le
  | jump tgt =>
    have htgt : (targetPc tgt).toNat ≤ tgt.toNat := by
      rw [targetPc, BitVec.toNat_setWidth]
      exact Nat.mod_le ..
    exact htgt.trans tgt.isLt.le
  | register | cell | advance | pop | log => exact hnext

/-- A pop past the end of the input leaves the cursor (R22). -/
theorem Effect.icur_le (h : Effect s t) (hs : s.icur ≤ s.inq.length) : t.icur ≤ s.inq.length := by
  cases h with
  | pop =>
    rw [writeReg_icur, inPop_icur]
    split
    · assumption
    · exact hs
  | register => rwa [writeReg_icur]
  | outOfRange | cell | advance | jump | log => exact hs

/-- What is logged is a signed value of a word (R23). -/
theorem Effect.log_signed (h : Effect s t) (hs : ∀ e ∈ s.outlog, -(2 ^ 31) ≤ e.value ∧ e.value < 2 ^ 31) :
    ∀ e ∈ t.outlog, -(2 ^ 31) ≤ e.value ∧ e.value < 2 ^ 31 := by
  cases h with
  | log v tag =>
    intro e he
    obtain hold | hnew := List.mem_append.mp he
    · exact hs e hold
    · rw [List.mem_singleton.mp hnew]
      exact signed_range v
  | register => rwa [writeReg_outlog]
  | pop => rwa [writeReg_outlog, inPop_outlog]
  | outOfRange | cell | advance | jump => exact hs

end Effect

/-! ## What one step does -/

section Step
variable {s t : State}

/-- The program, the input sequence and the parameters are what they were (R21, R22, R8). -/
theorem launchInputs_of_step (h : step s = .next t) : t.prog = s.prog ∧ t.inq = s.inq ∧ t.config = s.config := by
  obtain ⟨-, npc, hc⟩ | ⟨st, -, rfl⟩ := step_completes_or_ends h
  · exact ⟨hc.prog, hc.inq, hc.config⟩
  · exact ⟨rfl, rfl, rfl⟩

theorem steps_le_of_step (h : step s = .next t) (hs : s.steps ≤ s.config.stepLimit) :
    t.steps ≤ s.config.stepLimit := by
  obtain ⟨hne, npc, hc⟩ | ⟨st, -, rfl⟩ := step_completes_or_ends h
  · rw [hc.steps]
    exact Nat.succ_le_of_lt (Nat.lt_of_le_of_ne hs hne)
  · exact hs

/-- An instruction runs only at an index of the program (R55), so its default advance stays within 2^31 (R19). -/
theorem pc_le_of_step (h : step s = .next t) (hprog : programLength s ≤ 2 ^ 31) (hpc : s.pc.toNat ≤ 2 ^ 31) :
    t.pc.toNat ≤ 2 ^ 31 := by
  obtain ⟨-, ⟨-, rfl⟩ | ⟨-, -, rfl⟩ | ⟨hlt, -, ⟨e, -, rfl⟩ | ⟨i, -, hi⟩⟩⟩ := step_cases h
  · exact hpc
  · exact hpc
  · exact hpc
  · exact (effect_of_exec hi).pc_le (Nat.lt_of_lt_of_le hlt hprog)

/-- A step that goes on records no fault, and a step that ends the run in one names its pc (R80, R82). -/
theorem fault_record_of_step (h : step s = .next t) {f : Fault} (hf : t.status = .haltedFault f) :
    f.pc = t.pc ∧ f.code ≠ 4 := by
  obtain ⟨rfl, hpc, hcode⟩ := faultsArePrecise s t f h hf
  exact ⟨hpc, by omega⟩

end Step

/-- Settles O34: each field by the lemma on its component; a step that is no instruction changes the status alone. -/
theorem stepKeepsInvariant : Obligations.StepKeepsInvariant := by
  intro s t hs h
  obtain ⟨hprog, hinq, hcfg⟩ := launchInputs_of_step h
  have hmem : t.mem.WfBelow t.config.memSize := by
    rw [hcfg]
    obtain ⟨st, rfl⟩ | he := step_status_or_effect h
    · exact ⟨hs.memory_canonical, hs.memory_bounded⟩
    · exact he.wfBelow ⟨hs.memory_canonical, hs.memory_bounded⟩
  exact {
    memory_canonical := hmem.canonical
    memory_bounded := hmem.bounded
    hardwired_zero := HardwiredZero.after_step hs.hardwired_zero h
    pc_bounded := pc_le_of_step h hs.program_bounded hs.pc_bounded
    program_whole := hprog ▸ hs.program_whole
    program_bounded := by rw [programLength, hprog]; exact hs.program_bounded
    steps_bounded := by rw [hcfg]; exact steps_le_of_step h hs.steps_bounded
    cursor_bounded := by
      rw [hinq]
      obtain ⟨st, rfl⟩ | he := step_status_or_effect h
      · exact hs.cursor_bounded
      · exact he.icur_le hs.cursor_bounded
    log_signed := by
      obtain ⟨st, rfl⟩ | he := step_status_or_effect h
      · exact hs.log_signed
      · exact he.log_signed hs.log_signed
    log_bounded := LogBounded.after_step hs.log_bounded h
    fault_record := fun _ => fault_record_of_step h }

/-- Settles O33: the presets bring the memory below MEM_SIZE, the launch checks bound the program, and the rest is as
at reset. -/
theorem launchEstablishesInvariant : Obligations.LaunchEstablishesInvariant := by
  intro cfg image inq p s h
  obtain ⟨hlen, hmax, hpre, -⟩ := launch_cases h
  have hzero := hardwiredZero_of_launch h
  have hmem : (Memory.writeAll ⟨[]⟩ p.mem).WfBelow cfg.memSize :=
    (Memory.wfBelow_empty _).writeAll ((illegalPreset_eq_none_iff cfg p).mp hpre)
  obtain ⟨regs, rfl⟩ := launched_frame h
  exact {
    memory_canonical := hmem.canonical
    memory_bounded := hmem.bounded
    hardwired_zero := hzero
    pc_bounded := Nat.zero_le _
    program_whole := hlen
    program_bounded := hmax
    steps_bounded := Nat.zero_le _
    cursor_bounded := Nat.zero_le _
    log_signed := nofun
    log_bounded := Nat.le_refl _
    fault_record := nofun }

/-- Settles O32: State.reset is a launched state (log 2, log 3). -/
theorem invariantHoldsAtReset : Obligations.InvariantHoldsAtReset :=
  launchEstablishesInvariant _ _ _ _ _ resetIsLaunchOfEmptyImage

end Sys2Proof.Machine
end

section
/-! PROOF. Steps and runs (40_engine.md R55 to R61; 60_exceptions.md R83): what a step is defined on and counts, jumps
past the end, the host's placed word, a jump to itself, and the report of a whole run. -/

namespace Sys2Proof.Machine

/-! ## One step -/

/-- Settles O25: a running state steps, and a step starts from a running state. -/
theorem stepIsDefinedExactlyWhileRunning : Obligations.StepIsDefinedExactlyWhileRunning :=
  fun _ => ⟨fun ⟨_, h⟩ => (step_cases h).1, exists_step_of_running⟩

/-- Settles O27: a completed instruction leaves the run going on, and any other step ends it. -/
theorem stepCountsCompletedInstructions : Obligations.StepCountsCompletedInstructions := by
  intro s t h
  obtain ⟨-, npc, hc⟩ | ⟨st, hend, rfl⟩ := step_completes_or_ends h
  · have hrunning : t.status = .running := hc.status.trans (step_cases h).1
    exact ⟨fun _ => hc.steps, fun hne => absurd hrunning hne⟩
  · refine ⟨fun hrunning => ?_, fun _ => ⟨rfl, rfl⟩⟩
    have hterm := hend.terminal
    rw [status_eq_running_iff.mp hrunning] at hterm
    cases hterm

/-- Settles O28: neither way a step can go touches them. -/
theorem stepKeepsLaunchInputs : Obligations.StepKeepsLaunchInputs := fun _ _ => launchInputs_of_step

/-- Settles O29: only OUT appends, and one pair. -/
theorem stepOnlyAppendsToLog : Obligations.StepOnlyAppendsToLog := fun _ _ => step_outlog_eq_or_append

/-- Settles O22: a fetched word's index lies in the program, and its bytes are what the machine decodes. -/
theorem stepRunsDecodedInstruction : Obligations.StepRunsDecodedInstruction := by
  intro s w i ⟨hrunning, hbudget⟩ hw hdec
  rw [step_eq hrunning hw.pc_lt hbudget, hw.fetchDecode_eq, hdec]

/-- Settles O30: the jump's instruction completes at its target, where the next range check ends the run. -/
theorem jumpPastEndHaltsNormally : Obligations.JumpPastEndHaltsNormally := by
  intro s w i tgt hcan hw hdec hjump hpast
  have hpc : (targetPc tgt).toNat = tgt.toNat := BitVec.toNat_setWidth_of_le (by decide)
  have hexec : exec i s = commit (targetPc tgt) s := by
    obtain rfl | ⟨b, rfl, hb⟩ := hjump
    · exact exec_jmp s tgt
    · rw [exec_jz, hb]; rfl
  obtain ⟨t, ht, hc, -⟩ := commit_frame (targetPc tgt) s
  have hrunning : t.status = .running := hc.status.trans hcan.1
  refine ⟨t, (stepRunsDecodedInstruction s w i hcan hw hdec).trans (hexec.trans ht), by rw [hc.pc, hpc], hrunning,
    (stepChecksTermination t hrunning).1 ?_⟩
  rwa [hc.prog, hc.pc, hpc]

/-! ## The host's placed word (log 14) -/

section PlaceWord
variable (w : InstrWord) (s : State)

/-- The buffer filled up to the placed word. -/
theorem padProgram_take_length (n : Nat) (prog : List Byte) : ((padProgram n prog).take n).length = n := by
  rw [padProgram, List.length_take, List.length_append, List.length_replicate]
  omega

/-- Below the placed word the buffer's own bytes stand. -/
theorem placeWord_prog_below {k : Nat} (hk : k < s.prog.length) (hlow : k < 5 * s.pc.toNat) :
    (placeWord w s).prog[k]? = s.prog[k]? := by
  have hlen := padProgram_take_length (5 * s.pc.toNat) s.prog
  rw [placeWord, List.append_assoc, List.getElem?_append_left (by rwa [hlen]), List.getElem?_take_of_lt hlow,
    padProgram, List.getElem?_append_left hk]

/-- At the placed word its bytes stand. -/
theorem placeWord_fetchesWord : FetchesWord (placeWord w s) w := by
  intro j hj
  have hlen := padProgram_take_length (5 * s.pc.toNat) s.prog
  rw [placeWord, List.append_assoc, List.getElem?_append_right (by rw [hlen]; exact Nat.le_add_right ..), hlen,
    Nat.add_sub_cancel_left, List.getElem?_append_left (by rwa [bytesOfWord_length]),
    bytesOfWord_toList_getElem? w hj]

/-- Above the placed word the buffer's own bytes stand. -/
theorem placeWord_prog_above {k : Nat} (hhigh : 5 * s.pc.toNat + 5 ≤ k) :
    (placeWord w s).prog[k]? = s.prog[k]? := by
  have hlen := padProgram_take_length (5 * s.pc.toNat) s.prog
  have hfront : ((padProgram (5 * s.pc.toNat) s.prog).take (5 * s.pc.toNat) ++ (bytesOfWord w).toList).length =
      5 * s.pc.toNat + 5 := by
    rw [List.length_append, hlen, bytesOfWord_length]
  rw [placeWord, List.getElem?_append_right (by rwa [hfront]), hfront, List.getElem?_drop, Nat.add_sub_cancel' hhigh]

theorem placeWord_canStep : CanStep (placeWord w s) :=
  ⟨rfl, (Nat.lt_of_lt_of_le (Nat.lt_succ_self _) (Nat.le_max_right ..)).ne⟩

end PlaceWord

/-- Settles O31: the placed word is fetched where the next step looks, and every other part is read off. -/
theorem placedTableWordRunsNext : Obligations.PlacedTableWordRunsNext := by
  intro s nbits w i hdec
  have hfetch := placeWord_fetchesWord (tableWord nbits w) s
  refine ⟨stepRunsDecodedInstruction _ _ i (placeWord_canStep ..) hfetch hdec, fun _ => rfl, rfl, fun _ => rfl,
    fun k hk hout => ?bytes, rfl, rfl, rfl, rfl, rfl, rfl, rfl, rfl, rfl⟩
  case bytes =>
    obtain hlow | hhigh := hout
    · exact placeWord_prog_below _ s hk hlow
    · exact placeWord_prog_above _ s hhigh

/-! ## A jump to itself -/

/-- The run goes on, and the word at pc is a jump to pc. -/
structure SelfJump (tgt : Target) (s : State) : Prop where
  running : s.status = .running
  pc : s.pc = targetPc tgt
  word : FetchesWord s (Instr.jmp tgt).word

/-- Only the counter changes while the budget is not spent (R71). -/
theorem SelfJump.step_within {tgt : Target} {s : State} (h : SelfJump tgt s) (hs : s.steps ≠ s.config.stepLimit) :
    step s = .next { s with steps := s.steps + 1 } := by
  have hstep := stepRunsDecodedInstruction s _ _ ⟨h.running, hs⟩ h.word (decodeWord_word ..)
  rw [hstep, exec_jmp, ← h.pc]
  rfl

theorem SelfJump.step_spent {tgt : Target} {s : State} (h : SelfJump tgt s) (hs : s.steps = s.config.stepLimit) :
    step s = .next { s with status := .haltedStepLimit } :=
  (stepChecksTermination s h.running).2 h.word.pc_lt hs

/-- Any number of steps beyond the budget spends it and then ends the run (R61). -/
theorem SelfJump.runSteps_eq {tgt : Target} (n : Nat) {s : State} (h : SelfJump tgt s)
    (hle : s.steps ≤ s.config.stepLimit) (hlt : s.config.stepLimit < s.steps + n) :
    runSteps n s = { s with steps := s.config.stepLimit, status := .haltedStepLimit } := by
  induction n generalizing s with
  | zero => omega
  | succ n ih =>
    by_cases hs : s.steps = s.config.stepLimit
    · rw [runSteps_of_next (h.step_spent hs), runSteps_of_terminal rfl, ← hs]
    · rw [runSteps_of_next (h.step_within hs)]
      have hnext : SelfJump tgt { s with steps := s.steps + 1 } := ⟨h.running, h.pc, h.word⟩
      have hlt' : s.config.stepLimit < s.steps + 1 + n := by omega
      exact ih hnext (Nat.succ_le_of_lt (Nat.lt_of_le_of_ne hle hs)) hlt'

/-- Settles O36, by induction on the steps taken. -/
theorem selfJumpRunsToTheStepLimit : Obligations.SelfJumpRunsToTheStepLimit := by
  intro s tgt hrunning hpc hword hle
  have h : SelfJump tgt s := ⟨hrunning, hpc.trans (targetPc_eq_ofNat tgt).symm, hword⟩
  exact h.runSteps_eq _ hle (by omega)

/-! ## The report of a run -/

/-- An instruction leaves the status or records a fault (R59, R60). -/
theorem Effect.status_eq_or_fault {s t : State} (h : Effect s t) :
    t.status = s.status ∨ ∃ f, t.status = .haltedFault f := by
  cases h with
  | outOfRange => exact .inr ⟨_, rfl⟩
  | register => exact .inl (writeReg_status ..)
  | pop => exact .inl ((writeReg_status ..).trans (inPop_status s))
  | cell | advance | jump | log => exact .inl rfl

/-- A state halted at the step limit has spent its budget (R55). -/
def LimitSpent (s : State) : Prop := s.status = .haltedStepLimit → s.steps = s.config.stepLimit

theorem limitSpent_of_running {s : State} (h : s.status = .running) : LimitSpent s := by
  intro hlimit
  rw [h] at hlimit
  cases hlimit

/-- Only the budget check ends a run at the step limit. -/
theorem limitSpent_of_step {s t : State} (h : step s = .next t) : LimitSpent t := by
  obtain ⟨hrunning, ⟨-, rfl⟩ | ⟨-, hs, rfl⟩ | ⟨-, -, ⟨e, -, rfl⟩ | ⟨i, -, hi⟩⟩⟩ := step_cases h
  · exact nofun
  · exact fun _ => hs
  · exact nofun
  · obtain hst | ⟨f, hf⟩ := (effect_of_exec hi).status_eq_or_fault
    · exact limitSpent_of_running (hst.trans hrunning)
    · intro hlimit
      rw [hf] at hlimit
      cases hlimit

theorem config_runToEnd (s : State) : (runToEnd s).config = s.config :=
  runSteps_induction (P := (·.config = s.config)) (fun hs h => (launchInputs_of_step h).2.2.trans hs) _ rfl

theorem limitSpent_runToEnd {s : State} (h : s.status = .running) : LimitSpent (runToEnd s) :=
  runSteps_induction (fun _ hstep => limitSpent_of_step hstep) _ (limitSpent_of_running h)

/-- A load error is the length error, and reports the image's length (R54). -/
theorem launch_fault_cases {cfg : Config} {image : List Byte} {inq : List Int} {p : Presets} {e : LoadError}
    (h : launch cfg image inq p = .fault e) :
    image.length % 5 ≠ 0 ∧ e = .malformedProgramLength image.length := by
  unfold launch at h
  split at h
  next hlen => cases h; exact ⟨hlen, rfl⟩
  · split at h
    · cases h
    · split at h <;> cases h

theorem runImage_of_launched {cfg : Config} {image : List Byte} {inq : List Int} {p : Presets} {s : State}
    (h : launch cfg image inq p = .next s) :
    runImage cfg image inq p = .ended (runResult (runToEnd s)) (runToEnd s) := by
  rw [runImage, h]

theorem runImage_of_refused {cfg : Config} {image : List Byte} {inq : List Int} {p : Presets} {r : Refusal}
    (h : launch cfg image inq p = .refused r) : runImage cfg image inq p = .refused r := by
  rw [runImage, h]

theorem runImage_of_fault {cfg : Config} {image : List Byte} {inq : List Int} {p : Presets} {n : Nat}
    (h : launch cfg image inq p = .fault (.malformedProgramLength n)) :
    runImage cfg image inq p = .notLoaded (.malformedProgramLength n) := by
  rw [runImage, h]

/-- A report of no load comes from a load error (R83). -/
theorem launch_of_notLoaded {cfg : Config} {image : List Byte} {inq : List Int} {p : Presets} {r : RunResult}
    (h : runImage cfg image inq p = .notLoaded r) : ∃ n, launch cfg image inq p = .fault (.malformedProgramLength n) ∧
      r = .malformedProgramLength n := by
  cases hl : launch cfg image inq p with
  | next s => rw [runImage_of_launched hl] at h; cases h
  | refused r => rw [runImage_of_refused hl] at h; cases h
  | fault e =>
    obtain ⟨n⟩ := e
    rw [runImage_of_fault hl] at h
    cases h
    exact ⟨n, rfl, rfl⟩

/-- Settles O37: the report by the answer of the launch, and the result by the terminal status the run ends in. -/
theorem runReportNamesItsOutcome : Obligations.RunReportNamesItsOutcome := by
  intro cfg image inq p
  refine ⟨fun hlen => ?length, fun r hr => ?notLoaded, fun n hn => ?loadError, fun r => runImage_of_refused,
    fun s hs => ?launched⟩
  case length => exact runImage_of_fault ((launchStopsOnIllegalInput cfg image inq p).1 hlen)
  case notLoaded =>
    obtain ⟨n, hn, rfl⟩ := launch_of_notLoaded hr
    obtain ⟨hlen, he⟩ := launch_fault_cases hn
    cases he
    exact ⟨hlen, rfl⟩
  case loadError =>
    obtain ⟨-, he⟩ := launch_fault_cases hn
    cases he
    exact ⟨rfl, runImage_of_fault hn⟩
  case launched =>
    obtain ⟨hcfg, -, hzero⟩ := config_outlog_steps_of_launch hs
    obtain ⟨regs, hframe⟩ := launched_frame hs
    have hspent := limitSpent_runToEnd (s := s) (by rw [hframe]; rfl)
    obtain ⟨hterm, -⟩ := runEndsWithinStepLimit.2 s (by rw [hzero]; exact Nat.zero_le _)
    rw [runImage_of_launched hs, runResult]
    rw [LimitSpent, config_runToEnd, hcfg] at hspent
    cases hst : (runToEnd s).status with
    | running => rw [hst] at hterm; cases hterm
    | haltedNormal => exact .inl ⟨rfl, rfl⟩
    | haltedStepLimit => exact .inr (.inl ⟨rfl, hspent hst, rfl⟩)
    | haltedFault f => exact .inr (.inr ⟨f, rfl, rfl⟩)

/-! ## The numeric codes -/

/-- Settles O47: the codes are read off their definitions (R77). -/
theorem outcomeCodes : Obligations.OutcomeCodes :=
  ⟨fun _ _ => rfl, fun _ _ _ => rfl, fun _ _ _ _ => rfl, fun _ _ _ => rfl, fun _ => rfl, fun _ => rfl,
    fun _ _ => rfl, fun _ => rfl, fun _ => rfl, fun _ => rfl⟩

end Sys2Proof.Machine
end
